-- ==== Sys2Proof/Word.lean ====
section
/-! DEFINITION. The floating-point formats and the word that crosses a port (00_scope.md R8, R10, R11; 20_memory.md R52). -/

namespace Sys2Proof

/-- FMT: the floating-point format of one engine instance (R8, R10). -/
inductive Fmt
  | binary32
  | binary64
deriving DecidableEq, Repr

/-- FLEN: the width in bits of every floating-point value of the format (R8). -/
def Fmt.flen : Fmt → Nat
  | .binary32 => 32
  | .binary64 => 64

/-- Width of the biased exponent field (R11: sign, then biased exponent, then fraction). PRESUMED from IEEE 754 (log 14). -/
def Fmt.expBits : Fmt → Nat
  | .binary32 => 8
  | .binary64 => 11

/-- Width of the fraction field. PRESUMED from IEEE 754 (log 14). -/
def Fmt.fracBits : Fmt → Nat
  | .binary32 => 23
  | .binary64 => 52

/-- One floating-point datum: its FLEN-bit encoding in the low FLEN bits. In a binary32 engine the
upper 32 bits are 0; that every stored datum is so is an invariant (Safety.lean, `State.widthsFit`). -/
abbrev Word := BitVec 64

/-- A `Pair` of R11: an ordered pair (sin, cos), the sine component first. -/
structure Pair where
  sin : Word
  cos : Word
deriving DecidableEq, Repr

end Sys2Proof
end

