-- ==== Sys2Proof/Config.lean ====
section
/-! DEFINITION. What an engine instance fixes when it is built (00_scope.md R8) and the two open parameters of the
spec: SinCos (41_datapath.md R114) and NaNDraw (41_datapath.md R112). -/

namespace Sys2Proof

/-- The parameters of one engine instance (R8): plain data, held in State so that every statement is
about every instance; nothing the machine does changes them (log 2). -/
structure Params where
  /-- FMT (R10). -/
  fmt : Fmt
  /-- LAT_CONSTRUCT, in clock cycles (70_reset_and_hazards.md R170). -/
  latConstruct : Nat
  /-- LAT_SETSTEP. -/
  latSetstep : Nat
  /-- LAT_ADVANCE, also the latency of the reserved opcode (R170). -/
  latAdvance : Nat
  /-- RSP_DEPTH (20_memory.md R46). -/
  rspDepth : Nat
deriving DecidableEq, Repr

/-- R8: every latency and RSP_DEPTH is an integer ≥ 1. -/
def Params.valid (p : Params) : Bool :=
  decide (1 ≤ p.latConstruct) && decide (1 ≤ p.latSetstep) && decide (1 ≤ p.latAdvance)
    && decide (1 ≤ p.rspDepth)

/-- DESIGN CHOICE (log 2): the instance that `State.reset` is. The spec fixes no instance; every
statement holds for every value of these parameters. -/
def Config.resetParams : Params :=
  { fmt := .binary64, latConstruct := 1, latSetstep := 1, latAdvance := 1, rspDepth := 2 }

/-- SinCos_binary32 (R114): an uninterpreted total function. A FREE VALUE: no body, so nothing can be
proved of its values (log 4). -/
opaque Config.sinCos32 : BitVec 32 → BitVec 32 × BitVec 32

/-- SinCos_binary64 (R114), likewise uninterpreted (log 4). -/
opaque Config.sinCos64 : BitVec 64 → BitVec 64 × BitVec 64

/-- NaNDraw (R8, R112): the n-th draw, a FREE VALUE. `Machine.nanOf` turns each number into a NaN
encoding, and every NaN encoding of FMT is reached, so the only law is that the result is a NaN (log 3). -/
opaque Config.nanDraw : Nat → Nat

end Sys2Proof
end

