-- ==== Sys2Proof/Syntax.lean ====
section
/-! DEFINITION. Commands and responses (30_encoding.md R60 to R64, 60_exceptions.md R130). -/

namespace Sys2Proof

/-- The commands of spec/opcode_table.json, one constructor a row (R61). Fields the command ignores
(R64) are kept, so that no bit of a transfer is lost; their names begin with `ignored`. -/
inductive Instr
  /-- ADVANCE, op 0b00 (40_commands.md R93, R94). -/
  | advance (ignoredA ignoredB : Word)
  /-- SETSTEP, op 0b01: `omega` is field a (R87, R88). -/
  | setstep (omega ignoredB : Word)
  /-- CONSTRUCT, op 0b10: `theta0` is field a, `omega` field b (R81, R82). -/
  | construct (theta0 omega : Word)
  /-- The reserved opcode, op 0b11 (R65, R100). -/
  | reserved (ignoredA ignoredB : Word)
deriving DecidableEq, Repr

/-- The three fields of one command transfer: `cmd_op`, `cmd_a`, `cmd_b` (R40, R60). -/
structure Command where
  op : BitVec 2
  a : Word
  b : Word
deriving DecidableEq, Repr

/-- The response codes of R130. The fourth code, 0b11, is never produced and has no name here. -/
inductive RspCode
  | ok
  | illegalCmd
  | notConstructed
deriving DecidableEq, Repr

/-- One response: `rsp_code`, `rsp_sin`, `rsp_cos` (20_memory.md R45, R62). -/
structure Response where
  code : RspCode
  sin : Word
  cos : Word
deriving DecidableEq, Repr

end Sys2Proof
end

