-- ==== Sys2Proof/WellFormed.lean ====
section
/-! DEFINITION. Which commands and responses exist on the ports of an engine of a given format: every field is FLEN
bits wide (20_memory.md R40, 30_encoding.md R60). -/

namespace Sys2Proof

/-- The datum is a FLEN-bit word of the format. -/
def Word.fits (f : Fmt) (w : Word) : Bool := decide (w.toNat < 2 ^ f.flen)

/-- Both components are FLEN-bit words. -/
def Pair.fits (f : Fmt) (p : Pair) : Bool := Word.fits f p.sin && Word.fits f p.cos

/-- Both operand fields are FLEN-bit words. -/
def Command.fits (f : Fmt) (c : Command) : Bool := Word.fits f c.a && Word.fits f c.b

/-- Both result fields are FLEN-bit words. -/
def Response.fits (f : Fmt) (r : Response) : Bool := Word.fits f r.sin && Word.fits f r.cos

/-- A command is well formed for a format when both of its operand fields, the ignored ones too, are
FLEN bits wide (R60). -/
def Instr.wellFormed (f : Fmt) : Instr → Bool
  | .advance a b => Word.fits f a && Word.fits f b
  | .setstep a b => Word.fits f a && Word.fits f b
  | .construct a b => Word.fits f a && Word.fits f b
  | .reserved a b => Word.fits f a && Word.fits f b

end Sys2Proof
end

