-- ==== Sys2Proof/Decode.lean ====
section
/-! DEFINITION. Decoding and encoding of commands and responses, from the packed words of 30_encoding.md R60 to R62. -/

namespace Sys2Proof

/-- Why a number is refused by a decoder. -/
inductive DecodeError
  /-- It has a bit above 2·FLEN+1, so it is no packed word of the format (R60, R67). -/
  | notAPackedWord
  /-- A response whose code is 0b11, which the engine never produces (R130, U11). -/
  | reservedResponseCode
deriving DecidableEq, Repr

/-- The width 2·FLEN+2 of a packed word (R60, R62, R67). -/
abbrev Fmt.packedBits (f : Fmt) : Nat := f.flen + f.flen + 2

/-- The concatenation of R60 and R62: `{hi, lo, low2}` with FLEN-bit fields. -/
def packWord (f : Fmt) (low2 : BitVec 2) (lo hi : Word) : BitVec f.packedBits :=
  hi.setWidth f.flen ++ lo.setWidth f.flen ++ low2

/-- Bits [1:0] of a packed word (R60: op; R62: code). -/
def packedLow2 (f : Fmt) (w : BitVec f.packedBits) : BitVec 2 := w.extractLsb' 0 2

/-- Bits [FLEN+1:2] of a packed word (R60: a; R62: sin). -/
def packedLo (f : Fmt) (w : BitVec f.packedBits) : Word := (w.extractLsb' 2 f.flen).setWidth 64

/-- Bits [2·FLEN+1:FLEN+2] of a packed word (R60: b; R62: cos). -/
def packedHi (f : Fmt) (w : BitVec f.packedBits) : Word :=
  (w.extractLsb' (f.flen + 2) f.flen).setWidth 64

/-- The three port fields of a packed command word (R60). -/
def unpackCommand (f : Fmt) (w : BitVec f.packedBits) : Command :=
  { op := packedLow2 f w, a := packedLo f w, b := packedHi f w }

/-- R61: the `op` field alone selects the command; every value of it names exactly one row. -/
def decodeFields (c : Command) : Instr :=
  if c.op = 0b00#2 then .advance c.a c.b
  else if c.op = 0b01#2 then .setstep c.a c.b
  else if c.op = 0b10#2 then .construct c.a c.b
  else .reserved c.a c.b

/-- The decoder, total on any number: a packed word of the format decodes, any other number is
refused by name (R60, R61, R67). -/
def decode (f : Fmt) (n : Nat) : Except DecodeError Instr :=
  if n < 2 ^ f.packedBits then .ok (decodeFields (unpackCommand f (BitVec.ofNat f.packedBits n)))
  else .error .notAPackedWord

/-- The fixed interface's decoder: bits above `nbits` are 0, and the number is read as a packed word of
the format of `State.reset` (Config.resetParams, log 10). -/
def decodeTableWord (nbits w : Nat) : Option Instr :=
  match decode Config.resetParams.fmt (w % 2 ^ nbits) with
  | .ok i => some i
  | .error _ => none

/-- The opcode of a command (R61). -/
def Instr.opcode : Instr → BitVec 2
  | .advance _ _ => 0b00#2
  | .setstep _ _ => 0b01#2
  | .construct _ _ => 0b10#2
  | .reserved _ _ => 0b11#2

/-- Operand field a of a command. -/
def Instr.fieldA : Instr → Word
  | .advance a _ => a
  | .setstep a _ => a
  | .construct a _ => a
  | .reserved a _ => a

/-- Operand field b of a command. -/
def Instr.fieldB : Instr → Word
  | .advance _ b => b
  | .setstep _ b => b
  | .construct _ b => b
  | .reserved _ b => b

/-- The packed word of a command (R60). -/
def encode (f : Fmt) (i : Instr) : BitVec f.packedBits := packWord f i.opcode i.fieldA i.fieldB

/-- The 2-bit encodings of R130. -/
def RspCode.bits : RspCode → BitVec 2
  | .ok => 0b00#2
  | .illegalCmd => 0b01#2
  | .notConstructed => 0b10#2

/-- R130 read backwards; 0b11 names no code. -/
def RspCode.ofBits (b : BitVec 2) : Option RspCode :=
  if b = 0b00#2 then some .ok
  else if b = 0b01#2 then some .illegalCmd
  else if b = 0b10#2 then some .notConstructed
  else none

/-- The packed word of a response (R62). -/
def encodeResponse (f : Fmt) (r : Response) : BitVec f.packedBits :=
  packWord f r.code.bits r.sin r.cos

/-- The response a packed word stands for (R62); code 0b11 is refused (U11). -/
def decodeResponse (f : Fmt) (n : Nat) : Except DecodeError Response :=
  if n < 2 ^ f.packedBits then
    let w := BitVec.ofNat f.packedBits n
    match RspCode.ofBits (packedLow2 f w) with
    | some c => .ok { code := c, sin := packedLo f w, cos := packedHi f w }
    | none => .error .reservedResponseCode
  else .error .notAPackedWord

end Sys2Proof
end

