-- ==== Sys2Proof/Machine/Operands.lean ====
section
/-! DEFINITION. Operand values: the FLEN wires of a port and the fields of an IEEE 754 encoding
(00_scope.md R11, R12; 20_memory.md R52; 30_encoding.md R63). -/

namespace Sys2Proof.Machine

/-- The FLEN wires of an operand port: bit i of the port is bit i of the encoding, and there are no wires
above FLEN−1 (R40, R52; DEDUCED, log 13). It changes no word that fits the format (R63: taken bit for bit). -/
def portWord (f : Fmt) (w : Word) : Word := (w.setWidth f.flen).setWidth 64

/-- The sign, bit FLEN−1 (R11). -/
def signBit (f : Fmt) (w : Word) : Bool := w.getLsbD (f.flen - 1)

/-- The biased exponent field (R11). -/
def expField (f : Fmt) (w : Word) : Nat := w.toNat / 2 ^ f.fracBits % 2 ^ f.expBits

/-- The fraction field (R11). -/
def fracField (f : Fmt) (w : Word) : Nat := w.toNat % 2 ^ f.fracBits

/-- The exponent field of infinities and NaNs: all ones. -/
def expMax (f : Fmt) : Nat := 2 ^ f.expBits - 1

/-- The exponent bias. PRESUMED from IEEE 754 (log 14). -/
def bias (f : Fmt) : Nat := 2 ^ (f.expBits - 1) - 1

/-- `isFinite` of R12: neither an infinity nor a NaN. -/
def isFinite (f : Fmt) (w : Word) : Bool := expField f w != expMax f

/-- A NaN encoding of FMT. -/
def isNaN (f : Fmt) (w : Word) : Bool := expField f w == expMax f && fracField f w != 0

/-- An infinity, of either sign. -/
def isInf (f : Fmt) (w : Word) : Bool := expField f w == expMax f && fracField f w == 0

/-- A zero, of either sign. -/
def isZero (f : Fmt) (w : Word) : Bool := expField f w == 0 && fracField f w == 0

/-- The smallest subnormal is 2^(−unitExp): 149 for binary32, 1074 for binary64. Every finite value of the
format is an integer multiple of it, which is how the datapath computes exactly. -/
def unitExp (f : Fmt) : Nat := bias f + f.fracBits - 1

/-- The magnitude of a finite datum in multiples of the smallest subnormal (exact; subnormals
included, R113). -/
def mag (f : Fmt) (w : Word) : Nat :=
  if expField f w = 0 then fracField f w
  else (2 ^ f.fracBits + fracField f w) * 2 ^ (expField f w - 1)

/-- The value of a finite datum in multiples of the smallest subnormal. -/
def units (f : Fmt) (w : Word) : Int :=
  if signBit f w then -(mag f w : Int) else (mag f w : Int)

/-- The encoding with the given sign bit and the given lower FLEN−1 bits. -/
def withSign (f : Fmt) (neg : Bool) (low : Nat) : Word :=
  BitVec.ofNat 64 (low + if neg then 2 ^ (f.flen - 1) else 0)

/-- The lower FLEN−1 bits of an infinity. -/
def infLow (f : Fmt) : Nat := expMax f * 2 ^ f.fracBits

/-- +0: the all-zero encoding (40_commands.md). -/
def posZero : Word := 0#64

/-- −0. -/
def negZero (f : Fmt) : Word := withSign f true 0

/-- 1.0. -/
def one (f : Fmt) : Word := withSign f false (bias f * 2 ^ f.fracBits)

/-- The same datum with the other sign bit. -/
def flipSign (f : Fmt) (w : Word) : Word := withSign f (!signBit f w) (w.toNat % 2 ^ (f.flen - 1))

/-- The NaN encoding numbered `n`: sign and nonzero fraction. Every NaN encoding of the format has such a
number (41_datapath.md R112). -/
def nanOf (f : Fmt) (n : Nat) : Word :=
  withSign f (n % 2 == 1) (infLow f + 1 + n / 2 % (2 ^ f.fracBits - 1))

/-- The configured sine/cosine evaluator `SinCos` of R12 and 41_datapath.md R114, one function per FMT. -/
def sinCos (f : Fmt) (x : Word) : Pair :=
  match f with
  | .binary32 =>
    { sin := (Config.sinCos32 (x.setWidth 32)).1.setWidth 64
      cos := (Config.sinCos32 (x.setWidth 32)).2.setWidth 64 }
  | .binary64 => { sin := (Config.sinCos64 x).1, cos := (Config.sinCos64 x).2 }

end Sys2Proof.Machine
end

