-- ==== Sys2Proof/Machine/Datapath.lean ====
section
/-! DEFINITION. The floating-point datapath: FMul, FAdd, FSub and Rotate (41_datapath.md R110 to R119).
Each operation takes the index of the draw it uses if its result is a NaN (R112). -/

namespace Sys2Proof.Machine

/-- The quotient num/den rounded to an integer, ties to even. -/
def divNearestEven (num den : Nat) : Nat :=
  if den < 2 * (num % den) ∨ (2 * (num % den) = den ∧ num / den % 2 = 1) then num / den + 1
  else num / den

/-- How many low bits of the integer part of num/den lie below the precision of the format: 0 where
FRACBITS+1 significant bits reach down to the smallest subnormal. -/
def dropBits (f : Fmt) (num den : Nat) : Nat := Nat.log2 (num / den) - f.fracBits

/-- The lower FLEN−1 bits of the FMT value nearest to num/den multiples of the smallest subnormal:
roundTiesToEven, gradual underflow, overflow to infinity (R110, R111, R113; the threshold PRESUMED from IEEE 754, log 14). A rounding that carries
out of the significand moves to the next exponent by the addition itself. -/
def roundMag (f : Fmt) (num den : Nat) : Nat :=
  min (dropBits f num den * 2 ^ f.fracBits + divNearestEven num (den * 2 ^ dropBits f num den))
    (infLow f)

/-- The n-th draw of NaNDraw (R112): some NaN encoding of the format, a FREE VALUE (log 3). -/
def drawnNaN (f : Fmt) (n : Nat) : Word := nanOf f (Config.nanDraw n)

/-- FMul (R110). The exact product is in multiples of 2^(−2·unitExp), so it is rounded over 2^unitExp. -/
def fmul (f : Fmt) (d : Nat) (x y : Word) : Word :=
  if isNaN f x || isNaN f y then drawnNaN f d
  else if (isInf f x && isZero f y) || (isZero f x && isInf f y) then drawnNaN f d
  else if isInf f x || isInf f y then withSign f (signBit f x != signBit f y) (infLow f)
  else withSign f (signBit f x != signBit f y) (roundMag f (mag f x * mag f y) (2 ^ unitExp f))

/-- FAdd (R111). A zero sum is −0 exactly when both operands are negative. -/
def fadd (f : Fmt) (d : Nat) (x y : Word) : Word :=
  if isNaN f x || isNaN f y then drawnNaN f d
  else if isInf f x && isInf f y && signBit f x != signBit f y then drawnNaN f d
  else if isInf f x then withSign f (signBit f x) (infLow f)
  else if isInf f y then withSign f (signBit f y) (infLow f)
  else if units f x + units f y = 0 then withSign f (signBit f x && signBit f y) 0
  else withSign f (decide (units f x + units f y < 0)) (roundMag f (units f x + units f y).natAbs 1)

/-- FSub (R111): x − y is x + (−y) (PRESUMED from IEEE 754, log 14; every example of R111 agrees). -/
def fsub (f : Fmt) (d : Nat) (x y : Word) : Word := fadd f d x (flipSign f y)

/-- How many operations a Rotate performs (R116), each with a draw index of its own. -/
def drawsPerRotate : Nat := 6

/-- Rotate (R116): four separately rounded products, one sum, one difference, in the order and with the
operand order of the rule (R117, R118). -/
def rotate (f : Fmt) (d : Nat) (p s : Pair) : Pair :=
  let m1 := fmul f d p.sin s.cos
  let m2 := fmul f (d + 1) p.cos s.sin
  let m3 := fmul f (d + 2) p.cos s.cos
  let m4 := fmul f (d + 3) p.sin s.sin
  { sin := fadd f (d + 4) m1 m2, cos := fsub f (d + 5) m3 m4 }

end Sys2Proof.Machine
end

