-- ==== Sys2Proof/Machine/State.lean ====
section
/-! DEFINITION. The state of one engine, the host's side of its ports, and the reset state (10_state.md). -/

namespace Sys2Proof.Machine

/-- A command that has transferred and whose latency has not elapsed (10_state.md R28,
70_reset_and_hazards.md R170). -/
structure InFlight where
  /-- The fields sampled at the transfer edge (20_memory.md R42). -/
  cmd : Command
  /-- Rising edges until edge t + LAT: at the edge that finds 1 here the command completes. -/
  left : Nat
deriving DecidableEq, Repr

/-- What the host drives on the input ports at one rising edge (20_memory.md R40). -/
structure Drive where
  /-- Every input meets setup and hold at this edge (R41). A drive that does not has no move (R56, U12, log 8). -/
  meetsTiming : Bool
  /-- `rst`. -/
  rst : Bool
  /-- `cmd_valid`. -/
  cmdValid : Bool
  /-- `cmd_op`, `cmd_a`, `cmd_b`. -/
  cmd : Command
  /-- `rsp_ready`. -/
  rspReady : Bool
deriving DecidableEq, Repr

/-- The host drives nothing: no reset, no command, takes no response. -/
def Drive.idle : Drive :=
  { meetsTiming := true, rst := false, cmdValid := false, cmd := ⟨0#2, 0#64, 0#64⟩, rspReady := false }

/-- The state of the machine between two rising edges: the record of R29 (`constructed`, `stepVec`,
`phaseVec`, `rsps`), the interface state of R28 and R43, the instance parameters of R8, and the
model's own three last fields. -/
structure State where
  /-- The instance parameters (R8, log 2); nothing changes them. -/
  params : Params
  /-- CONSTRUCTED (R25). -/
  constructed : Bool
  /-- STEP = (STEP_SIN, STEP_COS) (R20); `none` holds no defined value, as R29 has it (log 5). -/
  stepVec : Option Pair
  /-- PHASE = (PHASE_SIN, PHASE_COS) (R20), likewise. -/
  phaseVec : Option Pair
  /-- The response queue, oldest first (R28, R45, R46). -/
  rsps : List Response
  /-- The command in flight (R28, R170). -/
  inFlight : Option InFlight
  /-- `rst` at the previous edge (R43, R160). -/
  prevRst : Bool
  /-- The MODEL's own: how many NaN encodings have been drawn (R112, log 3). -/
  nanDraws : Nat
  /-- The MODEL's own: what the host drives at the coming edges, one entry an edge (log 1). -/
  script : List Drive
  /-- The MODEL's own: the responses the host has taken, oldest first (log 1). -/
  taken : List Response
deriving DecidableEq, Repr

/-- The one reason the machine faults (40_commands.md R102). -/
inductive Fault
  /-- UndefinedOperand (60_exceptions.md R136): raised by CONSTRUCT with a non-finite operand and by SETSTEP
  with a non-finite operand while CONSTRUCTED = 1. SAFE: the hardware goes on with unspecified values
  (R137), and no claim can be proved past it (log 6). -/
  | undefinedOperand
deriving DecidableEq, Repr

/-- The reasons the model gives a step no meaning. -/
inductive Refusal
  /-- Raised by an arm of `exec` whose instruction has no meaning yet; no arm raises it. SAFE. -/
  | notModelled (mnemonic : String)
  /-- Raised by a rising edge whose inputs violate setup or hold (20_memory.md R41, R56; U12): "A model
  gives such a drive no move and lists it as assumed". UNSAFE if a host does it: hardware then does
  something, and the model says nothing of what (log 8). -/
  | setupHoldViolated
deriving DecidableEq, Repr

/-- The reset state of R33 and R160 for an instance with the given parameters. `prevRst` is DEDUCED (log 7), the
model's own three fields are DESIGN CHOICE (log 1, log 3). -/
def State.resetOf (p : Params) : State :=
  { params := p, constructed := false, stepVec := none, phaseVec := none, rsps := [],
    inFlight := none, prevRst := true, nanDraws := 0, script := [], taken := [] }

/-- The machine right after reset (R163: a model begins every run in the reset state of R33), for the
instance of log 2; `State.resetOf` gives every other instance. -/
def State.reset : State := State.resetOf Config.resetParams

end Sys2Proof.Machine
end

