-- ==== Sys2Proof/Machine/Flags.lean ====
section
/-! DEFINITION. The one status flag and the output ports, as functions of the state between two edges
(10_state.md R25, R26; 20_memory.md R40, R43, R44). The engine has no condition codes (R26). -/

namespace Sys2Proof.Machine

/-- CONSTRUCTED ← v (R25). -/
def State.setConstructed (s : State) (v : Bool) : State := { s with constructed := v }

/-- Output port `constructed` (R26). -/
def State.constructedOut (s : State) : Bool := s.constructed

/-- The response queue has a free entry (R43, R46). -/
def State.hasRoom (s : State) : Bool := decide (s.rsps.length < s.params.rspDepth)

/-- Output port `cmd_ready` (R43): the three conditions and no other. -/
def State.cmdReady (s : State) : Bool := !s.prevRst && s.inFlight.isNone && s.hasRoom

/-- Output port `rsp_valid` (R44, R160): a response waits, and `rst` was 0 at the previous edge. -/
def State.rspValid (s : State) : Bool := !s.prevRst && !s.rsps.isEmpty

/-- Output ports `rsp_code`, `rsp_sin`, `rsp_cos` (R44): the oldest response while `rsp_valid` = 1. The spec
gives the ports no value while `rsp_valid` = 0, and neither does the model (log 9). -/
def State.rspOut (s : State) : Option Response := if s.rspValid then s.rsps.head? else none

end Sys2Proof.Machine
end

