-- ==== Sys2Proof/Machine/Ops.lean ====
section
/-! DEFINITION. The shared operations of the commands: register writes, `respond`, `raise` and `fault` (00_scope.md R12;
20_memory.md R45; 60_exceptions.md R131), and reset (70_reset_and_hazards.md R160). The engine takes no trap and
returns from none (60_exceptions.md R140, R141): `raise` is its one way to report an error. -/

namespace Sys2Proof.Machine

/-- FMT of this instance (R10). -/
def State.fmt (s : State) : Fmt := s.params.fmt

/-- (STEP_SIN, STEP_COS) ← v (R22). -/
def State.writeStep (s : State) (v : Pair) : State := { s with stepVec := some v }

/-- (PHASE_SIN, PHASE_COS) ← v (R23). -/
def State.writePhase (s : State) (v : Pair) : State := { s with phaseVec := some v }

/-- Use up the draw indices of one Rotate (log 3). -/
def State.advanceDraws (s : State) : State := { s with nanDraws := s.nanDraws + drawsPerRotate }

/-- `respond(code, sin, cos)` (R45): append one response to the queue. -/
def State.respond (s : State) (code : RspCode) (sin cos : Word) : State :=
  { s with rsps := s.rsps ++ [{ code := code, sin := sin, cos := cos }] }

/-- The response every command but a successful ADVANCE gives: both result fields +0 (R45). -/
def State.respondZero (s : State) (code : RspCode) : State := s.respond code posZero posZero

/-- `raise E` (R131): the response (E, +0, +0), and no register or flag written. -/
def raiseError (code : RspCode) (s : State) : Host.Outcome State Fault Refusal :=
  .next (s.respondZero code)

/-- `fault UndefinedOperand` (R136). -/
def faultUndefinedOperand : Host.Outcome State Fault Refusal := .fault .undefinedOperand

/-- An edge with `rst` = 1 (R160): the reset state of R33. The instance, the draws already used and the
host's own script and record are no state of the engine and stay. -/
def State.enterReset (s : State) : State :=
  { State.resetOf s.params with nanDraws := s.nanDraws, script := s.script, taken := s.taken }

end Sys2Proof.Machine
end

