-- ==== Sys2Proof/Machine/Commands.lean ====
section
/-! DEFINITION. The meanings of the commands: the rows of R102, in the priority of 60_exceptions.md R134. -/

namespace Sys2Proof.Machine

/-- ADVANCE (40_commands.md R94): respond the pre-rotation PHASE, then rotate it by STEP. While a register it
would read holds no value the command is NOT_CONSTRUCTED (R25, R29: "Rule R25 makes every such read a
NOT_CONSTRUCTED error instead"; DEDUCED, log 5). The operand fields are not read (R64). -/
def execAdvance (_ignoredA _ignoredB : Word) (s : State) : Host.Outcome State Fault Refusal :=
  match s.constructed, s.phaseVec, s.stepVec with
  | true, some out, some w =>
    .next (((s.writePhase (rotate s.fmt s.nanDraws out w)).advanceDraws).respond .ok out.sin out.cos)
  | _, _, _ => raiseError .notConstructed s

/-- SETSTEP (40_commands.md R88): CONSTRUCTED = 0 is decided before the operand is examined (R134); field b
is not read (R64). -/
def execSetstep (omega _ignoredB : Word) (s : State) : Host.Outcome State Fault Refusal :=
  if s.constructed = false then raiseError .notConstructed s
  else if isFinite s.fmt omega = false then faultUndefinedOperand
  else .next ((s.writeStep (sinCos s.fmt (portWord s.fmt omega))).respondZero .ok)

/-- CONSTRUCT (40_commands.md R82), legal whatever CONSTRUCTED holds (R83). -/
def execConstruct (theta0 omega : Word) (s : State) : Host.Outcome State Fault Refusal :=
  if isFinite s.fmt theta0 = false ∨ isFinite s.fmt omega = false then faultUndefinedOperand
  else
    .next ((((s.writeStep (sinCos s.fmt (portWord s.fmt omega))).writePhase
      (sinCos s.fmt (portWord s.fmt theta0))).setConstructed true).respondZero .ok)

/-- The reserved opcode (40_commands.md R100): ILLEGAL_CMD, whatever the operands or CONSTRUCTED hold. -/
def execReserved (_ignoredA _ignoredB : Word) (s : State) : Host.Outcome State Fault Refusal :=
  raiseError .illegalCmd s

end Sys2Proof.Machine
end

