-- ==== Sys2Proof/Machine/Dispatch.lean ====
section
/-! DEFINITION. The step function of one command, `Exec` of 40_commands.md R102: one atomic step. -/

namespace Sys2Proof.Machine

/-- One arm per row of spec/opcode_table.json. -/
def exec (i : Instr) (s : State) : Host.Outcome State Fault Refusal :=
  match i with
  | .advance a b => Sys2Proof.Machine.execAdvance a b s
  | .setstep a b => Sys2Proof.Machine.execSetstep a b s
  | .construct a b => Sys2Proof.Machine.execConstruct a b s
  | .reserved a b => Sys2Proof.Machine.execReserved a b s

end Sys2Proof.Machine
end

