-- ==== Sys2Proof/Machine/Clock.lean ====
section
/-! DEFINITION. One rising edge of `clk`: handshakes, latency and reset (20_memory.md R41 to R47;
70_reset_and_hazards.md R160 to R162, R170). -/

namespace Sys2Proof.Machine

/-- The host's drive at the next edge; after the script it drives nothing (DESIGN CHOICE, log 1). -/
def State.nextDrive (s : State) : Drive := s.script.headD Drive.idle

/-- The script after that edge. -/
def State.dropDrive (s : State) : State := { s with script := s.script.tail }

/-- `rst` at the previous edge ← v (R43, R160). -/
def State.setPrevRst (s : State) (v : Bool) : State := { s with prevRst := v }

/-- The in-flight command ← v (R28). -/
def State.setInFlight (s : State) (v : Option InFlight) : State := { s with inFlight := v }

/-- LAT of an opcode (R170): a reserved opcode takes LAT_ADVANCE. -/
def latency (p : Params) (op : BitVec 2) : Nat :=
  if op = 0b10#2 then p.latConstruct
  else if op = 0b01#2 then p.latSetstep
  else p.latAdvance

/-- The fields sampled at a transfer edge: FLEN wires of each operand port (R40, R42). -/
def sampleCommand (f : Fmt) (c : Command) : Command :=
  { op := c.op, a := portWord f c.a, b := portWord f c.b }

/-- A command transfers at this edge (R42). -/
def cmdTransfers (d : Drive) (s : State) : Bool := !d.rst && d.cmdValid && s.cmdReady

/-- A response transfers at this edge (R44, R162). -/
def rspTransfers (d : Drive) (s : State) : Bool := !d.rst && s.rspValid && d.rspReady

/-- The command side of an edge: a transferring command is in flight until edge t + LAT (R42, R170). -/
def State.acceptCommand (d : Drive) (s : State) : State :=
  if cmdTransfers d s then
    s.setInFlight (some { cmd := sampleCommand s.fmt d.cmd, left := latency s.params d.cmd.op })
  else s

/-- Hand the oldest response to the host (R44, R47). -/
def State.popResponse (s : State) : State :=
  { s with rsps := s.rsps.tail, taken := s.taken ++ s.rsps.head?.toList }

/-- The response side of an edge (R44). -/
def State.takeResponse (d : Drive) (s : State) : State :=
  if rspTransfers d s then s.popResponse else s

/-- The command an in-flight entry stands for: the bits sampled at its transfer edge (R50). -/
def InFlight.instr (c : InFlight) : Instr := decodeFields c.cmd

/-- One rising edge with the inputs `d`. Both handshakes look at the outputs before the edge, so a response
taken at this edge frees its entry for `cmd_ready` only after it (R43; DEDUCED, log 15). A command completes at the edge
that finds one edge left: its writes take effect and its response enters the queue (R170). -/
def clockEdge (d : Drive) (s : State) : Host.Outcome State Fault Refusal :=
  if d.meetsTiming = false then .refused .setupHoldViolated
  else if d.rst = true then .next s.enterReset
  else
    match s.inFlight with
    | none => .next (((s.acceptCommand d).takeResponse d).setPrevRst false)
    | some c =>
      if c.left ≤ 1 then
        exec c.instr (((s.takeResponse d).setInFlight none).setPrevRst false)
      else
        .next (((s.takeResponse d).setInFlight (some { c with left := c.left - 1 })).setPrevRst false)

/-- The edge with the host's next drive. -/
def nextEdge (s : State) : Host.Outcome State Fault Refusal := clockEdge s.nextDrive s.dropDrive

/-- A command placed in flight with one edge left, the host driving nothing at that edge: the next edge is
its edge t + LAT, and runs it (DESIGN CHOICE, log 10). -/
def State.placeCommand (s : State) (c : Command) : State :=
  { s with inFlight := some { cmd := sampleCommand s.fmt c, left := 1 }, prevRst := false,
           script := Drive.idle :: s.script }

/-- The command whose packed word has the bits `w` (R60), bits above `nbits` 0. -/
def tableCommand (f : Fmt) (nbits w : Nat) : Command :=
  unpackCommand f (BitVec.ofNat f.packedBits (w % 2 ^ nbits))

end Sys2Proof.Machine
end

