-- ==== Sys2Proof/Machine/Step.lean ====
section
/-! DEFINITION. The step of the machine: one rising edge of `clk` (20_memory.md R41). -/

namespace Sys2Proof.Machine

/-- One rising edge, with the inputs the host's script gives. -/
def step (s : State) : Host.Outcome State Fault Refusal := nextEdge s

/-- The fixed interface: `s` with that command where the next step completes it (log 10). -/
def State.withFetchWord (s : State) (nbits w : Nat) : State :=
  s.placeCommand (tableCommand s.fmt nbits w)

end Sys2Proof.Machine
end

