-- ==== Sys2Proof/Machine/Assembler.lean ====
section
/-! DEFINITION. The spec's assembly syntax for a command stream (30_encoding.md R68, R69): one line of text to at most one
command. It is no part of the engine; `decimalWord` rounds with the datapath's own rounding. -/

namespace Sys2Proof.Machine

/-- Why a line is refused. -/
inductive AsmError
  /-- The line has none of the forms of R68. -/
  | badLine
  /-- An operand is neither a decimal literal nor `0x` with 1 to FLEN/4 hexadecimal digits. -/
  | badOperand
  /-- A `.fmt` line names another format than the engine's. -/
  | otherFormat
deriving DecidableEq, Repr

/-- What one line of a stream stands for. -/
inductive AsmLine
  /-- Nothing but a comment. -/
  | empty
  /-- `.fmt binary32` or `.fmt binary64`. -/
  | fmt (f : Fmt)
  /-- One command (R69). -/
  | command (i : Instr)
deriving DecidableEq, Repr

/-- The encoding of the decimal literal ±digits·10^(up−down): the nearest FMT value, roundTiesToEven (R68). -/
def decimalWord (f : Fmt) (neg : Bool) (digits up down : Nat) : Word :=
  withSign f neg (roundMag f (digits * 10 ^ up * 2 ^ unitExp f) (10 ^ down))

/-- The value of one digit in the given base. -/
def digitValue (base : Nat) (c : Char) : Option Nat :=
  let n := c.toNat
  let v :=
    if 48 ≤ n ∧ n ≤ 57 then n - 48
    else if 97 ≤ n ∧ n ≤ 102 then n - 87
    else if 65 ≤ n ∧ n ≤ 70 then n - 55
    else base
  if v < base then some v else none

/-- A run of one or more digits, the whole list. -/
def digitsValue (base : Nat) (cs : List Char) : Option Nat :=
  if cs.isEmpty then none
  else cs.foldl (fun acc c => acc.bind fun n => (digitValue base c).map fun v => n * base + v) (some 0)

/-- The list up to the first character that satisfies `p`, and what follows that character, if any. -/
def splitAtFirst (p : Char → Bool) : List Char → List Char × Option (List Char)
  | [] => ([], none)
  | c :: cs =>
    if p c then ([], some cs)
    else (c :: (splitAtFirst p cs).1, (splitAtFirst p cs).2)

/-- An optional sign: true for `-`. -/
def takeSign : List Char → Bool × List Char
  | '-' :: cs => (true, cs)
  | '+' :: cs => (false, cs)
  | cs => (false, cs)

/-- A decimal literal: an optional sign, digits, an optional point with digits, an optional exponent.
DESIGN CHOICE (log 11): R68 gives no grammar of decimal literals. -/
def parseDecimal (f : Fmt) (cs : List Char) : Option Word :=
  let sign := takeSign cs
  let expSplit := splitAtFirst (fun c => c == 'e' || c == 'E') sign.2
  let pointSplit := splitAtFirst (fun c => c == '.') expSplit.1
  let fraction := pointSplit.2.getD []
  let exponent : Option (Bool × Nat) :=
    match expSplit.2 with
    | none => some (false, 0)
    | some e => (digitsValue 10 (takeSign e).2).map fun n => ((takeSign e).1, n)
  match digitsValue 10 (pointSplit.1 ++ fraction), exponent with
  | some digits, some (negExp, n) =>
    if negExp then some (decimalWord f sign.1 digits 0 (fraction.length + n))
    else some (decimalWord f sign.1 digits n fraction.length)
  | _, _ => none

/-- An operand of R68. -/
def parseOperand (f : Fmt) (cs : List Char) : Except AsmError Word :=
  match cs with
  | '0' :: 'x' :: ds =>
    match digitsValue 16 ds with
    | some n => if ds.length ≤ f.flen / 4 then .ok (BitVec.ofNat 64 n) else .error .badOperand
    | none => .error .badOperand
  | _ =>
    match parseDecimal f cs with
    | some w => .ok w
    | none => .error .badOperand

/-- `<op>` of the raw form: `0b` and two binary digits. -/
def parseOp : List Char → Option (BitVec 2)
  | '0' :: 'b' :: d1 :: d0 :: [] => (digitsValue 2 [d1, d0]).map fun n => BitVec.ofNat 2 n
  | _ => none

/-- The tokens of a line without its comment: blanks separate, a comma is a token of its own. Empty tokens
stand between separators. -/
def tokens : List Char → List (List Char)
  | [] => []
  | c :: cs =>
    if c == ';' then []
    else if c == ' ' || c == '\t' then [] :: tokens cs
    else if c == ',' then [] :: [','] :: [] :: tokens cs
    else
      match tokens cs with
      | t :: ts => (c :: t) :: ts
      | [] => [[c]]

/-- One line of assembly (R68). An omitted operand is all-zero bits. -/
def assembleLine (f : Fmt) (line : String) : Except AsmError AsmLine :=
  match (tokens line.toList).filter (fun t => !t.isEmpty) with
  | [] => .ok .empty
  | [m] =>
    if m = "ADVANCE".toList then .ok (.command (.advance posZero posZero)) else .error .badLine
  | [m, x] =>
    if m = "SETSTEP".toList then
      match parseOperand f x with
      | .ok w => .ok (.command (.setstep w posZero))
      | .error e => .error e
    else if m = ".fmt".toList then
      if x = "binary32".toList then .ok (.fmt .binary32)
      else if x = "binary64".toList then .ok (.fmt .binary64)
      else .error .badLine
    else .error .badLine
  | [m, x, comma, y] =>
    if m = "CONSTRUCT".toList ∧ comma = [','] then
      match parseOperand f x, parseOperand f y with
      | .ok t, .ok w => .ok (.command (.construct t w))
      | .error e, _ => .error e
      | _, .error e => .error e
    else .error .badLine
  | [m, o, comma, x, comma', y] =>
    if m = "CMD".toList ∧ comma = [','] ∧ comma' = [','] then
      match parseOp o, parseOperand f x, parseOperand f y with
      | some op, .ok a, .ok b => .ok (.command (decodeFields { op := op, a := a, b := b }))
      | none, _, _ => .error .badLine
      | _, .error e, _ => .error e
      | _, _, .error e => .error e
    else .error .badLine
  | _ => .error .badLine

/-- A stream for an engine of format `f`: its commands in order, one per command line (R69). A `.fmt` line
must name the engine's format. -/
def assembleStream (f : Fmt) : List String → Except AsmError (List Instr)
  | [] => .ok []
  | line :: rest =>
    match assembleLine f line, assembleStream f rest with
    | .error e, _ => .error e
    | .ok _, .error e => .error e
    | .ok .empty, .ok is => .ok is
    | .ok (.fmt g), .ok is => if g = f then .ok is else .error .otherFormat
    | .ok (.command i), .ok is => .ok (i :: is)

end Sys2Proof.Machine
end

