-- ==== Sys2Proof/Safety.lean ====
section
/-! DEFINITION. The terms claims are stated in: the invariants of the state, undefined commands, runs of commands and of
clock edges, and the named properties of SinCos (41_datapath.md R115). -/

namespace Sys2Proof.Machine

/-! ### Invariants -/

/-- R29: `constructed` is 1 exactly when STEP and PHASE hold values; before, neither does (R33). -/
def State.regsHeld (s : State) : Bool :=
  s.stepVec.isSome == s.constructed && s.phaseVec.isSome == s.constructed

/-- R46: the queue holds at most RSP_DEPTH responses, the one of the command in flight counted. -/
def State.roomKept (s : State) : Bool :=
  decide (s.rsps.length + (if s.inFlight.isSome then 1 else 0) ≤ s.params.rspDepth)

/-- R20, R40: every register, queued response and in-flight operand is FLEN bits wide. -/
def State.widthsFit (s : State) : Bool :=
  s.stepVec.all (Pair.fits s.fmt) && s.phaseVec.all (Pair.fits s.fmt)
    && s.rsps.all (Response.fits s.fmt) && s.inFlight.all (fun c => c.cmd.fits s.fmt)

/-- R170: a command in flight has between 1 and LAT edges left. -/
def State.flightTimed (s : State) : Bool :=
  s.inFlight.all fun c => decide (1 ≤ c.left) && decide (c.left ≤ latency s.params c.cmd.op)

/-- R33, R160: while `rst` was 1 at the previous edge the engine is in the reset state. -/
def State.resetClean (s : State) : Bool :=
  !s.prevRst || (!s.constructed && s.stepVec.isNone && s.phaseVec.isNone && s.rsps.isEmpty && s.inFlight.isNone)

/-- All of them, for an instance whose parameters are valid (R8). -/
def State.inv (s : State) : Bool :=
  s.params.valid && s.regsHeld && s.roomKept && s.widthsFit && s.flightTimed && s.resetClean

/-! ### Commands -/

/-- R136: the undefined commands. -/
def commandUndefined (i : Instr) (s : State) : Bool :=
  match i with
  | .construct a b => !isFinite s.fmt a || !isFinite s.fmt b
  | .setstep a _ => s.constructed && !isFinite s.fmt a
  | .advance _ _ => false
  | .reserved _ _ => false

/-- The code R130 to R134 give the response of a command that is not undefined. -/
def expectedCode (i : Instr) (constructed : Bool) : RspCode :=
  match i with
  | .reserved _ _ => .illegalCmd
  | .construct _ _ => .ok
  | .setstep _ _ => if constructed then .ok else .notConstructed
  | .advance _ _ => if constructed then .ok else .notConstructed

/-- Commands executed one after another, each an atomic step (R47, R102). -/
def execAll : List Instr → State → Host.Outcome State Fault Refusal
  | [], s => .next s
  | i :: is, s =>
    match exec i s with
    | .next t => execAll is t
    | .fault r => .fault r
    | .refused r => .refused r

/-- The phases P_0, P_1, ... of R95, with the draw indices each Rotate uses. -/
def iterRotate (f : Fmt) (d : Nat) (w p : Pair) : Nat → Pair
  | 0 => p
  | k + 1 => rotate f (d + drawsPerRotate * k) (iterRotate f d w p k) w

/-- Equal, or NaNs both (R96, R112: the encoding of a NaN is a draw). -/
def sameValue (f : Fmt) (x y : Word) : Prop := x = y ∨ (isNaN f x = true ∧ isNaN f y = true)

/-- `sameValue` on both components. -/
def Pair.sameValue (f : Fmt) (p q : Pair) : Prop :=
  Machine.sameValue f p.sin q.sin ∧ Machine.sameValue f p.cos q.cos

/-! ### Clock edges -/

/-- `k` steps, stopping at the first fault or refusal. -/
def runEdges : Nat → State → Host.Outcome State Fault Refusal
  | 0, s => .next s
  | k + 1, s =>
    match step s with
    | .next t => runEdges k t
    | .fault r => .fault r
    | .refused r => .refused r

/-- None of the next `k` edges is a reset edge or violates the timing of R41. -/
def State.quietFor (k : Nat) (s : State) : Bool :=
  (s.script.take k).all fun d => d.meetsTiming && !d.rst

/-- The command that transfers at the next edge, if any (R42). -/
def State.transferring (s : State) : Option Instr :=
  if cmdTransfers s.nextDrive s then some (decodeFields (sampleCommand s.fmt s.nextDrive.cmd)) else none

/-- The commands that transfer at the next `k` edges, in order. -/
def transferredIn : Nat → State → List Instr
  | 0, _ => []
  | k + 1, s =>
    s.transferring.toList ++
      match step s with
      | .next t => transferredIn k t
      | .fault _ => []
      | .refused _ => []

/-- All responses so far that reset has not discarded: taken, then waiting. -/
def State.responses (s : State) : List Response := s.taken ++ s.rsps

/-! ### Named properties of SinCos (R115). The machine assumes none of them. -/

/-- The finite datum as a rational number. -/
def valueOf (f : Fmt) (w : Word) : ℚ := (units f w : ℚ) / 2 ^ unitExp f

/-- `SC_Finite`. -/
def SC_Finite (f : Fmt) : Prop :=
  ∀ x, Word.fits f x = true → isFinite f x = true →
    isFinite f (sinCos f x).sin = true ∧ isFinite f (sinCos f x).cos = true

/-- `w` is finite and at most `k` in magnitude. -/
def magAtMost (f : Fmt) (k : Nat) (w : Word) : Prop :=
  isFinite f w = true ∧ mag f w ≤ k * mag f (one f)

/-- `SC_Bounded`: both components lie in [−1, 1]. -/
def SC_Bounded (f : Fmt) : Prop :=
  ∀ x, Word.fits f x = true → isFinite f x = true →
    magAtMost f 1 (sinCos f x).sin ∧ magAtMost f 1 (sinCos f x).cos

/-- `SC_Zero`: SinCos(+0) = (+0, 1.0). -/
def SC_Zero (f : Fmt) : Prop := sinCos f posZero = { sin := posZero, cos := one f }

/-- 2^e is one unit in the last place of the real number `r` in the format: FRACBITS below the leading
bit of `r`, and never below the smallest subnormal. DESIGN CHOICE (log 16): R115 does not say what a unit in the
last place is. Safe here: no statement uses it. -/
def isUlpExponent (f : Fmt) (r : ℝ) (e : ℤ) : Prop :=
  (|r| < (2 : ℝ) ^ (1 - (bias f : ℤ)) ∧ e = -(unitExp f : ℤ)) ∨
  ((2 : ℝ) ^ (1 - (bias f : ℤ)) ≤ |r| ∧ (2 : ℝ) ^ (e + f.fracBits) ≤ |r| ∧ |r| < (2 : ℝ) ^ (e + f.fracBits + 1))

/-- The finite datum `w` is within `k` units in the last place of the real number `r`. DESIGN CHOICE (log 16): the
units are those of `r`, and `w` is finite. Safe here: no statement uses it. -/
def withinUlps (f : Fmt) (k : ℝ) (w : Word) (r : ℝ) : Prop :=
  isFinite f w = true ∧ ∀ e : ℤ, isUlpExponent f r e → |((valueOf f w : ℚ) : ℝ) - r| ≤ k * (2 : ℝ) ^ e

/-- `SC_Accurate(k)`. DESIGN CHOICE (log 16): R115 does not say what numbers k may be; here k is any real number,
0.5 among them. Safe here: no statement uses it. -/
def SC_Accurate (f : Fmt) (k : ℝ) : Prop :=
  ∀ x, Word.fits f x = true → isFinite f x = true →
    withinUlps f k (sinCos f x).sin (Real.sin ((valueOf f x : ℚ) : ℝ)) ∧
    withinUlps f k (sinCos f x).cos (Real.cos ((valueOf f x : ℚ) : ℝ))

/-- `SC_Table(T)`: SinCos agrees with the finite table T of input and output encodings. -/
def SC_Table (f : Fmt) (T : List (Word × Pair)) : Prop := ∀ e ∈ T, sinCos f e.1 = e.2

end Sys2Proof.Machine
end

