-- ==== Sys2Proof/Certificates/Slice0/Obligations.lean ====
section
/-! DEFINITION. What is claimed of the IQOSC engine: one definition per obligation, each citing the rules of spec/ it rests on. -/

open Sys2Proof Sys2Proof.Machine

/-! ### Encoding (30_encoding.md) -/

/-- O1 (R60, R61, R67). In both formats, for every command whose operand fields are FLEN bits wide, decoding its
packed word (R60) answers exactly that command, with every bit of both fields. -/
def Obligations.DecodeEncodeRoundTrip : Prop :=
  ∀ (f : Fmt) (i : Instr), i.wellFormed f = true → decode f (encode f i).toNat = .ok i

/-- O2 (R60, R61, R67). A number below 2^(2*FLEN+2) decodes to a well-formed command whose packed word is that
number; any other number is refused by name. -/
def Obligations.EncodeDecodeRoundTrip : Prop :=
  ∀ (f : Fmt) (n : Nat),
    (n < 2 ^ f.packedBits → ∃ i, decode f n = .ok i ∧ i.wellFormed f = true ∧ (encode f i).toNat = n) ∧
    (2 ^ f.packedBits ≤ n → decode f n = .error .notAPackedWord)

/-- O3 (R61). Each of the four values of op names its row of R61, fields a and b in the table's order, and no other
value exists. -/
def Obligations.OpcodeSelectsCommand : Prop :=
  (∀ a b, decodeFields ⟨0b00#2, a, b⟩ = .advance a b) ∧ (∀ a b, decodeFields ⟨0b01#2, a, b⟩ = .setstep a b) ∧
    (∀ a b, decodeFields ⟨0b10#2, a, b⟩ = .construct a b) ∧ (∀ a b, decodeFields ⟨0b11#2, a, b⟩ = .reserved a b) ∧
    (∀ op : BitVec 2, op = 0b00#2 ∨ op = 0b01#2 ∨ op = 0b10#2 ∨ op = 0b11#2)

/-- O4 (R70). The eight encodings of R70's table, in both formats, decode to the commands of their rows. -/
def Obligations.SpecWordsDecode : Prop :=
  decode .binary64 0x0FFE487ED5110B4600000000000000002 = .ok (.construct 0x0000000000000000 0x3FF921FB54442D18) ∧
    decode .binary64 0x000000000000000000000000000000002 = .ok (.construct 0 0) ∧
    decode .binary64 0x00000000000000000FFC0000000000001 = .ok (.setstep 0x3FF0000000000000 0) ∧
    decode .binary64 0x000000000000000000000000000000000 = .ok (.advance 0 0) ∧
    decode .binary64 0x000000000000000000000000000000003 = .ok (.reserved 0 0) ∧
    decode .binary32 0x0FF243F6C00000002 = .ok (.construct 0x00000000 0x3FC90FDB) ∧
    decode .binary32 0x00000000000000001 = .ok (.setstep 0 0) ∧
    decode .binary32 0x00000000000000000 = .ok (.advance 0 0)

/-- O5 (R62, R130). In both formats, every response with FLEN-bit fields survives its packed word (R62), and a
packed word with code 0b11 is refused (R130). -/
def Obligations.ResponseRoundTrip : Prop :=
  ∀ f : Fmt, (∀ r : Response, r.fits f = true → decodeResponse f (encodeResponse f r).toNat = .ok r) ∧
    (∀ lo hi : Word, decodeResponse f (packWord f 0b11#2 lo hi).toNat = .error .reservedResponseCode)

/-- O6 (R68, R70). Four of R70's lines, one per command, in the text syntax of R68, assemble to commands whose
packed words are those of the table. -/
def Obligations.SpecLinesAssemble : Prop :=
  (∃ i, assembleLine .binary64 "CONSTRUCT 0.0, 0x3FF921FB54442D18" = .ok (.command i) ∧
      (encode .binary64 i).toNat = 0x0FFE487ED5110B4600000000000000002) ∧
    (∃ i, assembleLine .binary64 "SETSTEP 1.0" = .ok (.command i) ∧
      (encode .binary64 i).toNat = 0x00000000000000000FFC0000000000001) ∧
    (∃ i, assembleLine .binary32 "ADVANCE" = .ok (.command i) ∧ (encode .binary32 i).toNat = 0) ∧
    (∃ i, assembleLine .binary64 "CMD 0b11, 0x0, 0x0" = .ok (.command i) ∧ (encode .binary64 i).toNat = 3)

/-! ### Commands (40_commands.md, 60_exceptions.md) -/

/-- O7 (R82). In every state, with finite FLEN-bit operands CONSTRUCT completes in exactly the state of R82 and
changes nothing else; with a non-finite operand it is the fault UndefinedOperand. -/
def Obligations.ConstructLoadsBothPairs : Prop :=
  ∀ (s : State) (theta0 omega : Word),
    (Word.fits s.fmt theta0 = true → Word.fits s.fmt omega = true →
      isFinite s.fmt theta0 = true → isFinite s.fmt omega = true →
      exec (.construct theta0 omega) s = .next { s with
        constructed := true
        stepVec := some (sinCos s.fmt omega)
        phaseVec := some (sinCos s.fmt theta0)
        rsps := s.rsps ++ [⟨.ok, posZero, posZero⟩] }) ∧
    (isFinite s.fmt theta0 = false ∨ isFinite s.fmt omega = false →
      exec (.construct theta0 omega) s = .fault .undefinedOperand)

/-- O8 (R88). While CONSTRUCTED = 1 and the FLEN-bit angle is finite, SETSTEP completes with STEP rewritten and the
response (OK, +0, +0), nothing else changed; while CONSTRUCTED = 0 it completes with NOT_CONSTRUCTED whatever
its fields hold; else it is the fault UndefinedOperand. -/
def Obligations.SetstepRewritesStepOnly : Prop :=
  ∀ (s : State) (omega b : Word),
    (s.constructed = true → Word.fits s.fmt omega = true → isFinite s.fmt omega = true →
      exec (.setstep omega b) s = .next { s with
        stepVec := some (sinCos s.fmt omega)
        rsps := s.rsps ++ [⟨.ok, posZero, posZero⟩] }) ∧
    (s.constructed = false →
      exec (.setstep omega b) s = .next { s with rsps := s.rsps ++ [⟨.notConstructed, posZero, posZero⟩] }) ∧
    (s.constructed = true → isFinite s.fmt omega = false →
      exec (.setstep omega b) s = .fault .undefinedOperand)

/-- O9 (R94). While CONSTRUCTED = 1 and the registers hold values (R29's invariant), ADVANCE completes: the response
is (OK, old PHASE), the new PHASE is Rotate(old PHASE, STEP) for some draws, and nothing else of the engine
changes (the model's own draw counter, log entry 3, goes to some value). While CONSTRUCTED = 0 it completes with
NOT_CONSTRUCTED and changes nothing else. -/
def Obligations.AdvanceReturnsThenRotates : Prop :=
  ∀ (s : State) (a b : Word),
    (∀ p w, s.constructed = true → s.phaseVec = some p → s.stepVec = some w →
      ∃ draw counter, exec (.advance a b) s = .next { s with
        phaseVec := some (rotate s.fmt draw p w)
        nanDraws := counter
        rsps := s.rsps ++ [⟨.ok, p.sin, p.cos⟩] }) ∧
    (s.constructed = false →
      exec (.advance a b) s = .next { s with rsps := s.rsps ++ [⟨.notConstructed, posZero, posZero⟩] })

/-- O10 (R100). Whatever CONSTRUCTED and the operand fields hold, the reserved opcode completes with the response
(ILLEGAL_CMD, +0, +0) and changes no other state. -/
def Obligations.ReservedAnswersIllegalCmd : Prop :=
  ∀ (s : State) (a b : Word),
    exec (.reserved a b) s = .next { s with rsps := s.rsps ++ [⟨.illegalCmd, posZero, posZero⟩] }

/-- O11 (R134, R136, R138). For every command in every state: an undefined command (R136) is the fault
UndefinedOperand, and any other command completes with a next state. No command is refused. -/
def Obligations.UndefinedOperandExactly : Prop :=
  ∀ (i : Instr) (s : State),
    (commandUndefined i s = true → exec i s = .fault .undefinedOperand) ∧
    (commandUndefined i s = false → ∃ t, exec i s = .next t)

/-- O12 (R45, R130, R132, R133, R134). Where R29's invariant holds, a command that is not undefined completes with
one response appended: its code is ILLEGAL_CMD exactly for the reserved opcode, NOT_CONSTRUCTED exactly for
SETSTEP and ADVANCE while CONSTRUCTED = 0, else OK; its values are the old PHASE for a successful ADVANCE and +0
otherwise. -/
def Obligations.OneResponseOfTheExpectedCode : Prop :=
  ∀ (i : Instr) (s : State), s.regsHeld = true → commandUndefined i s = false →
    ∃ t r, exec i s = .next t ∧ t.rsps = s.rsps ++ [r] ∧ r.code = expectedCode i s.constructed ∧
      (∀ a b p, i = .advance a b → s.phaseVec = some p → r.sin = p.sin ∧ r.cos = p.cos) ∧
      ((∀ a b, i ≠ .advance a b) ∨ s.constructed = false → r.sin = posZero ∧ r.cos = posZero)

/-- O13 (R131, R135). In every state, if a command appends a response whose code is not OK, that response carries +0
twice and the state afterwards is the state before but for the queue. -/
def Obligations.ErrorsArePrecise : Prop :=
  ∀ (i : Instr) (s t : State) (r : Response), exec i s = .next t → t.rsps = s.rsps ++ [r] → r.code ≠ .ok →
    t = { s with rsps := s.rsps ++ [r] } ∧ r.sin = posZero ∧ r.cos = posZero

/-- O14 (R21, R22, R23, R25, R45). If a command completes, the instance, the command in flight, the reset bit, the
host's script and record are unchanged, the queue has one response more, and: CONSTRUCT leaves the draw counter;
SETSTEP leaves PHASE, CONSTRUCTED and the draw counter; ADVANCE leaves STEP and CONSTRUCTED; the reserved opcode
leaves all of them. -/
def Obligations.CommandFrame : Prop :=
  ∀ (i : Instr) (s t : State), exec i s = .next t →
    t.params = s.params ∧ t.inFlight = s.inFlight ∧ t.prevRst = s.prevRst ∧ t.script = s.script ∧
    t.taken = s.taken ∧ (∃ r, t.rsps = s.rsps ++ [r]) ∧
    (∀ a b, i = .construct a b → t.nanDraws = s.nanDraws) ∧
    (∀ a b, i = .setstep a b →
      t.phaseVec = s.phaseVec ∧ t.constructed = s.constructed ∧ t.nanDraws = s.nanDraws) ∧
    (∀ a b, i = .advance a b → t.stepVec = s.stepVec ∧ t.constructed = s.constructed) ∧
    (∀ a b, i = .reserved a b → t.stepVec = s.stepVec ∧ t.phaseVec = s.phaseVec ∧
      t.constructed = s.constructed ∧ t.nanDraws = s.nanDraws)

/-- O15 (R64). ADVANCE and the reserved opcode give the same outcome for any two pairs of fields, and SETSTEP for
any two values of field b; none of these values makes a command undefined. -/
def Obligations.IgnoredFieldsAreNotRead : Prop :=
  ∀ (s : State) (a b a' b' : Word),
    exec (.advance a b) s = exec (.advance a' b') s ∧ exec (.reserved a b) s = exec (.reserved a' b') s ∧
    exec (.setstep a b) s = exec (.setstep a b') s

/-- O16 (R83). Two engines of one instance, whatever their registers and flags, hold the same STEP, PHASE and
CONSTRUCTED after the same CONSTRUCT with finite operands. -/
def Obligations.ConstructForgetsTheOldState : Prop :=
  ∀ (s s' : State) (theta0 omega : Word), s'.params = s.params →
    isFinite s.fmt theta0 = true → isFinite s.fmt omega = true →
    ∃ t t', exec (.construct theta0 omega) s = .next t ∧ exec (.construct theta0 omega) s' = .next t' ∧
      t.constructed = true ∧ t'.constructed = true ∧ t'.stepVec = t.stepVec ∧ t'.phaseVec = t.phaseVec

/-- O17 (R96, R112). Two constructed engines of one format with the same STEP and PHASE, everything else different,
give the same response to ADVANCE, and their next PHASEs agree component by component except where both are
NaNs. -/
def Obligations.AdvanceDependsOnRegistersOnly : Prop :=
  ∀ (s s' : State) (p w : Pair) (a b a' b' : Word), s'.fmt = s.fmt →
    s.constructed = true → s'.constructed = true → s.phaseVec = some p → s'.phaseVec = some p →
    s.stepVec = some w → s'.stepVec = some w →
    ∃ t t' q q', exec (.advance a b) s = .next t ∧ exec (.advance a' b') s' = .next t' ∧
      t.rsps = s.rsps ++ [⟨.ok, p.sin, p.cos⟩] ∧ t'.rsps = s'.rsps ++ [⟨.ok, p.sin, p.cos⟩] ∧
      t.phaseVec = some q ∧ t'.phaseVec = some q' ∧ Pair.sameValue s.fmt q q'

/-- O18 (R84). From every state, CONSTRUCT with finite angles, any number of SETSTEPs with finite angles, then
ADVANCE: all complete and the last response is (OK, SinCos(theta0)). -/
def Obligations.FirstSampleIsTheConstructedPhase : Prop :=
  ∀ (s : State) (theta0 omega a b : Word) (ws : List (Word × Word)),
    isFinite s.fmt theta0 = true → isFinite s.fmt omega = true → (∀ w ∈ ws, isFinite s.fmt w.1 = true) →
    ∃ t, execAll (.construct theta0 omega :: (ws.map (fun w => Instr.setstep w.1 w.2) ++ [.advance a b])) s = .next t ∧
      t.rsps.getLast? = some ⟨.ok, (sinCos s.fmt (portWord s.fmt theta0)).sin,
        (sinCos s.fmt (portWord s.fmt theta0)).cos⟩

/-- O19 (R89, R166). On a constructed engine with PHASE p: SETSTEP with a finite angle, then two ADVANCEs, answer
OK, then p, then Rotate(p, SinCos(angle)). Which draw the Rotate uses is the model's choice (log entry 3). -/
def Obligations.SetstepActsFromTheSecondSample : Prop :=
  ∀ (s : State) (p : Pair) (omega b a1 b1 a2 b2 : Word), s.constructed = true → s.phaseVec = some p →
    isFinite s.fmt omega = true →
    ∃ t, execAll [.setstep omega b, .advance a1 b1, .advance a2 b2] s = .next t ∧
      t.rsps = s.rsps ++ [⟨.ok, posZero, posZero⟩, ⟨.ok, p.sin, p.cos⟩,
        ⟨.ok, (rotate s.fmt s.nanDraws p (sinCos s.fmt (portWord s.fmt omega))).sin,
          (rotate s.fmt s.nanDraws p (sinCos s.fmt (portWord s.fmt omega))).cos⟩]

/-- O20 (R82, R94, R95). From every state and for every N: CONSTRUCT with finite angles and N ADVANCEs all complete;
the responses are OK and then P_0, ..., P_(N-1), and PHASE is P_N, where P_0 = SinCos(theta0) and P_(k+1) =
Rotate(P_k, SinCos(omega)). Which draw each Rotate uses is the model's choice (log entry 3). -/
def Obligations.AdvanceSequenceIteratesRotate : Prop :=
  ∀ (s : State) (theta0 omega a b : Word) (n : Nat),
    isFinite s.fmt theta0 = true → isFinite s.fmt omega = true →
    ∃ t, execAll (.construct theta0 omega :: List.replicate n (.advance a b)) s = .next t ∧
      t.phaseVec = some (iterRotate s.fmt s.nanDraws (sinCos s.fmt (portWord s.fmt omega))
        (sinCos s.fmt (portWord s.fmt theta0)) n) ∧
      t.rsps = s.rsps ++ (⟨.ok, posZero, posZero⟩ :: (List.range n).map fun k =>
        ⟨.ok, (iterRotate s.fmt s.nanDraws (sinCos s.fmt (portWord s.fmt omega))
            (sinCos s.fmt (portWord s.fmt theta0)) k).sin,
          (iterRotate s.fmt s.nanDraws (sinCos s.fmt (portWord s.fmt omega))
            (sinCos s.fmt (portWord s.fmt theta0)) k).cos⟩)

/-- O21 (R98). For every constructed engine with STEP = (+0, 1.0) and finite FLEN-bit PHASE (ps, pc): ADVANCE
completes, -0 in ps becomes +0 when the sign bit of pc is 0, -0 in pc becomes +0 when the sign bit of ps is 1,
and both components are otherwise unchanged. -/
def Obligations.UnitStepHoldsThePhase : Prop :=
  ∀ (s : State) (ps pc a b : Word), s.constructed = true →
    s.stepVec = some ⟨posZero, one s.fmt⟩ → s.phaseVec = some ⟨ps, pc⟩ →
    Word.fits s.fmt ps = true → Word.fits s.fmt pc = true →
    isFinite s.fmt ps = true → isFinite s.fmt pc = true →
    ∃ t, exec (.advance a b) s = .next t ∧ t.phaseVec = some
      ⟨if ps = negZero s.fmt ∧ signBit s.fmt pc = false then posZero else ps,
       if pc = negZero s.fmt ∧ signBit s.fmt ps = true then posZero else pc⟩

/-! ### Datapath (41_datapath.md) -/

/-- O22 (R116). For every format, pair and step, Rotate is exactly the six operations of R116 on the old phase, each
with some draw for a NaN result. -/
def Obligations.RotateFormula : Prop :=
  ∀ (f : Fmt) (d : Nat) (ps pc ss sc : Word), ∃ d1 d2 d3 d4 d5 d6,
    rotate f d ⟨ps, pc⟩ ⟨ss, sc⟩ =
      ⟨fadd f d5 (fmul f d1 ps sc) (fmul f d2 pc ss), fsub f d6 (fmul f d3 pc sc) (fmul f d4 ps ss)⟩

/-- O23 (R110, R113). For finite operands and a finite result, no finite FMT value is nearer to the exact product
than FMul's result, subnormals included, and where another value is equally near the result's last bit is 0.
Values are counted in multiples of the smallest subnormal. -/
def Obligations.ProductIsNearestEven : Prop :=
  ∀ (f : Fmt) (d : Nat) (x y z : Word), isFinite f x = true → isFinite f y = true → isFinite f z = true →
    isFinite f (fmul f d x y) = true →
    |units f x * units f y - units f (fmul f d x y) * 2 ^ unitExp f| ≤
      |units f x * units f y - units f z * 2 ^ unitExp f| ∧
    (units f z ≠ units f (fmul f d x y) →
      |units f x * units f y - units f z * 2 ^ unitExp f| =
        |units f x * units f y - units f (fmul f d x y) * 2 ^ unitExp f| →
      (fmul f d x y).toNat % 2 = 0)

/-- O24 (R110). For finite operands, the result is an infinity exactly when twice the exact magnitude reaches
(2^(FRACBITS+2) - 1) units of the top binade, the roundTiesToEven overflow threshold; otherwise it is finite.
R110 says only that results that overflow become infinity: the exact threshold is taken from IEEE 754 (PRESUMED,
log entry 14). -/
def Obligations.ProductOverflow : Prop :=
  ∀ (f : Fmt) (d : Nat) (x y : Word), isFinite f x = true → isFinite f y = true →
    isFinite f (fmul f d x y) = !isInf f (fmul f d x y) ∧
    (isInf f (fmul f d x y) = true ↔
      (2 ^ (f.fracBits + 2) - 1) * 2 ^ (expMax f - 2) * 2 ^ unitExp f ≤ 2 * (mag f x * mag f y))

/-- O25 (R110, R112). For all operands: the result is a NaN exactly when an operand is one or an infinity meets a
zero; a result that is not a NaN has the XOR of the operand signs; an infinity times a nonzero operand that is
not a NaN is an infinity. R110 and R112 give the XOR of signs and infinity times zero; that a NaN operand gives
a NaN, that no other product is one, and that infinity times nonzero is infinity are taken from IEEE 754
(PRESUMED, log entry 14). -/
def Obligations.ProductSignsAndSpecials : Prop :=
  ∀ (f : Fmt) (d : Nat) (x y : Word),
    (isNaN f (fmul f d x y) = true ↔ isNaN f x = true ∨ isNaN f y = true ∨
      (isInf f x = true ∧ isZero f y = true) ∨ (isZero f x = true ∧ isInf f y = true)) ∧
    (isNaN f (fmul f d x y) = false → signBit f (fmul f d x y) = (signBit f x != signBit f y)) ∧
    (isInf f x = true ∨ isInf f y = true → isNaN f (fmul f d x y) = false → isInf f (fmul f d x y) = true)

/-- O26 (R111, R113). For finite operands and a finite result, no finite FMT value is nearer to the exact sum
(difference) than FAdd's (FSub's) result, and where another value is equally near the result's last bit is 0. -/
def Obligations.SumIsNearestEven : Prop :=
  ∀ (f : Fmt) (d : Nat) (x y z : Word), isFinite f x = true → isFinite f y = true → isFinite f z = true →
    (isFinite f (fadd f d x y) = true →
      |units f x + units f y - units f (fadd f d x y)| ≤ |units f x + units f y - units f z| ∧
      (units f z ≠ units f (fadd f d x y) →
        |units f x + units f y - units f z| = |units f x + units f y - units f (fadd f d x y)| →
        (fadd f d x y).toNat % 2 = 0)) ∧
    (isFinite f (fsub f d x y) = true →
      |units f x - units f y - units f (fsub f d x y)| ≤ |units f x - units f y - units f z| ∧
      (units f z ≠ units f (fsub f d x y) →
        |units f x - units f y - units f z| = |units f x - units f y - units f (fsub f d x y)| →
        (fsub f d x y).toNat % 2 = 0))

/-- O27 (R111). For finite operands, FAdd (FSub) is an infinity exactly when twice the magnitude of the exact sum
(difference) reaches (2^(FRACBITS+2) - 1) units of the top binade, with the sign of the exact value; otherwise
it is finite. R111 does not give the threshold or that sign: both are taken from IEEE 754 (PRESUMED, log entry
14). -/
def Obligations.SumOverflow : Prop :=
  ∀ (f : Fmt) (d : Nat) (x y : Word), isFinite f x = true → isFinite f y = true →
    isFinite f (fadd f d x y) = !isInf f (fadd f d x y) ∧
    (isInf f (fadd f d x y) = true ↔
      (2 ^ (f.fracBits + 2) - 1) * 2 ^ (expMax f - 2) ≤ 2 * (units f x + units f y).natAbs) ∧
    (isInf f (fadd f d x y) = true → signBit f (fadd f d x y) = decide (units f x + units f y < 0)) ∧
    isFinite f (fsub f d x y) = !isInf f (fsub f d x y) ∧
    (isInf f (fsub f d x y) = true ↔
      (2 ^ (f.fracBits + 2) - 1) * 2 ^ (expMax f - 2) ≤ 2 * (units f x - units f y).natAbs) ∧
    (isInf f (fsub f d x y) = true → signBit f (fsub f d x y) = decide (units f x - units f y < 0))

/-- O28 (R111). For finite operands with exact sum zero FAdd is -0 if both are negative zeros and +0 otherwise; for
exact difference zero FSub is -0 for (-0) - (+0) and +0 otherwise. -/
def Obligations.ZeroSumsHaveTheRuledSign : Prop :=
  ∀ (f : Fmt) (d : Nat) (x y : Word), isFinite f x = true → isFinite f y = true →
    (units f x + units f y = 0 →
      fadd f d x y = if signBit f x = true ∧ signBit f y = true then negZero f else posZero) ∧
    (units f x - units f y = 0 →
      fsub f d x y = if signBit f x = true ∧ signBit f y = false then negZero f else posZero)

/-- O29 (R111, R112). FAdd is a NaN exactly for a NaN operand or infinities of opposite sign, and FSub for a NaN
operand or infinities of like sign; otherwise a sum with an infinite operand is that infinity, and a difference
with infinite subtrahend is the infinity of the other sign. R111 gives only the two NaN cases of two infinities;
that a NaN operand gives a NaN, that no other sum or difference is one, and what an infinity and a finite value
give are taken from IEEE 754 (PRESUMED, log entry 14). -/
def Obligations.InfiniteSums : Prop :=
  ∀ (f : Fmt) (d : Nat) (x y : Word),
    (isNaN f (fadd f d x y) = true ↔ isNaN f x = true ∨ isNaN f y = true ∨
      (isInf f x = true ∧ isInf f y = true ∧ signBit f x ≠ signBit f y)) ∧
    (isNaN f (fsub f d x y) = true ↔ isNaN f x = true ∨ isNaN f y = true ∨
      (isInf f x = true ∧ isInf f y = true ∧ signBit f x = signBit f y)) ∧
    (isInf f x = true → isNaN f (fadd f d x y) = false → fadd f d x y = withSign f (signBit f x) (infLow f)) ∧
    (isInf f y = true → isNaN f (fadd f d x y) = false → fadd f d x y = withSign f (signBit f y) (infLow f)) ∧
    (isInf f x = true → isNaN f (fsub f d x y) = false → fsub f d x y = withSign f (signBit f x) (infLow f)) ∧
    (isInf f y = true → isNaN f (fsub f d x y) = false → fsub f d x y = withSign f (!signBit f y) (infLow f))

/-- O30 (R8, R112). Whatever number the draw gives, the encoding made of it is an FLEN-bit NaN, and every FLEN-bit
NaN encoding is made of some number. -/
def Obligations.DrawReachesEveryNaN : Prop :=
  ∀ f : Fmt, (∀ n, isNaN f (nanOf f n) = true ∧ Word.fits f (nanOf f n) = true) ∧
    (∀ w, Word.fits f w = true → isNaN f w = true → ∃ n, nanOf f n = w)

/-- O31 (R111, R113). For finite operands whose exact sum (difference) is below 2^(FRACBITS+1) multiples of the
smallest subnormal, FAdd (FSub) has exactly that value: nothing is flushed to zero. -/
def Obligations.SmallSumsAreExact : Prop :=
  ∀ (f : Fmt) (d : Nat) (x y : Word), isFinite f x = true → isFinite f y = true →
    ((units f x + units f y).natAbs < 2 ^ (f.fracBits + 1) →
      units f (fadd f d x y) = units f x + units f y) ∧
    ((units f x - units f y).natAbs < 2 ^ (f.fracBits + 1) →
      units f (fsub f d x y) = units f x - units f y)

/-- O32 (R118). For one and the same draw, exchanging the operands of FMul or of FAdd changes no bit of the result. -/
def Obligations.OperandOrderDoesNotMatter : Prop :=
  ∀ (f : Fmt) (d : Nat) (x y : Word), fmul f d x y = fmul f d y x ∧ fadd f d x y = fadd f d y x

/-- O33 (R112, R116). If every component of PHASE and STEP is finite and at most 2 in magnitude, both components of
Rotate are finite, whatever the draw. -/
def Obligations.BoundedRotationIsFinite : Prop :=
  ∀ (f : Fmt) (d : Nat) (p w : Pair), magAtMost f 2 p.sin → magAtMost f 2 p.cos →
    magAtMost f 2 w.sin → magAtMost f 2 w.cos →
    isFinite f (rotate f d p w).sin = true ∧ isFinite f (rotate f d p w).cos = true

/-! ### Ports, clock and reset (20_memory.md, 70_reset_and_hazards.md) -/

/-- O34 (R44, R45, R50, R102, R170). For every state with a command in flight whose last edge this is, and a drive
that is no reset and meets timing, step is exec of the command decoded from the sampled fields, on the state
with the flight ended, the reset bit 0, the drive consumed and the oldest response handed over if it transfers
at this edge. That it leaves before the new one is appended at the same edge is the model's reading of R44 and
R45 (DEDUCED, log entry 15). -/
def Obligations.StepRunsTheCommandInFlight : Prop :=
  ∀ (s : State) (c : InFlight), s.inFlight = some c → c.left ≤ 1 →
    s.nextDrive.meetsTiming = true → s.nextDrive.rst = false →
    step s = exec (decodeFields c.cmd) { s with
      inFlight := none
      prevRst := false
      script := s.script.tail
      rsps := if s.rspValid && s.nextDrive.rspReady then s.rsps.tail else s.rsps
      taken := if s.rspValid && s.nextDrive.rspReady then s.taken ++ s.rsps.head?.toList else s.taken }

/-- O35 (R50, R60, R102). If the placed number decodes to i in the engine's format, the next step is exec of i on
the state with nothing in flight and the reset bit 0. Where the word stands (in flight, one edge left, host
idle) is the model's convention of log entry 10. -/
def Obligations.PlacedWordIsRun : Prop :=
  ∀ (s : State) (nbits w : Nat) (i : Instr), decode s.fmt (w % 2 ^ nbits) = .ok i →
    step (s.withFetchWord nbits w) = exec i { s with inFlight := none, prevRst := false }

/-- O36 (R43). In every state cmd_ready is the conjunction of the three conditions of R43 and of no other. -/
def Obligations.ReadyExactlyWhenFree : Prop :=
  ∀ s : State, s.cmdReady = true ↔
    s.prevRst = false ∧ s.inFlight = none ∧ s.rsps.length < s.params.rspDepth

/-- O37 (R42, R43, R170). At an edge with rst = 0, cmd_valid = 1 and cmd_ready = 1 the engine samples the command;
it is in flight with LAT of its opcode left, cmd_ready becomes 0, and no register, flag or response changes
except that the oldest response may go to the host. -/
def Obligations.OfferedCommandTransfers : Prop :=
  ∀ s : State, s.nextDrive.meetsTiming = true → s.nextDrive.rst = false → s.nextDrive.cmdValid = true →
    s.cmdReady = true →
    ∃ t, step s = .next t ∧
      t.inFlight = some ⟨⟨s.nextDrive.cmd.op, portWord s.fmt s.nextDrive.cmd.a, portWord s.fmt s.nextDrive.cmd.b⟩,
        latency s.params s.nextDrive.cmd.op⟩ ∧
      t.cmdReady = false ∧ t.constructed = s.constructed ∧ t.stepVec = s.stepVec ∧ t.phaseVec = s.phaseVec ∧
      t.nanDraws = s.nanDraws ∧ t.responses = s.responses

/-- O38 (R170). The number of edges a command is in flight is LAT_ADVANCE for ADVANCE and the reserved opcode,
LAT_SETSTEP for SETSTEP, LAT_CONSTRUCT for CONSTRUCT. -/
def Obligations.LatencyByOpcode : Prop :=
  ∀ p : Params, latency p 0b00#2 = p.latAdvance ∧ latency p 0b01#2 = p.latSetstep ∧
    latency p 0b10#2 = p.latConstruct ∧ latency p 0b11#2 = p.latAdvance

/-- O39 (R170). With more than one edge left, an edge without reset leaves registers, flag and pending responses as
they were and one edge less to go. -/
def Obligations.FlightCountsDown : Prop :=
  ∀ (s : State) (c : InFlight), s.inFlight = some c → 1 < c.left →
    s.nextDrive.meetsTiming = true → s.nextDrive.rst = false →
    ∃ t, step s = .next t ∧ t.inFlight = some { c with left := c.left - 1 } ∧ t.cmdReady = false ∧
      t.constructed = s.constructed ∧ t.stepVec = s.stepVec ∧ t.phaseVec = s.phaseVec ∧
      t.nanDraws = s.nanDraws ∧ t.responses = s.responses

/-- O40 (R42). For every state with cmd_ready = 0, two drives that differ only in cmd_valid, cmd_op, cmd_a and cmd_b
give the same outcome of the edge. -/
def Obligations.UnreadyEdgeIgnoresTheCommandPort : Prop :=
  ∀ (s : State) (d : Drive) (v : Bool) (c : Command), s.cmdReady = false →
    clockEdge { d with cmdValid := v, cmd := c } s = clockEdge d s

/-- O41 (R44). If a response is offered and neither reset nor rsp_ready comes at an edge, the same response is
offered after it. -/
def Obligations.OfferedResponseIsHeld : Prop :=
  ∀ (s t : State) (r : Response), step s = .next t → s.rspOut = some r →
    s.nextDrive.rst = false → s.nextDrive.rspReady = false → t.rspOut = some r

/-- O42 (R44, R46, R47). At an edge without reset, the responses taken and waiting, in order, stay and at most one
is appended; what the host newly records is the response that was offered. -/
def Obligations.ResponsesKeepTheirOrder : Prop :=
  ∀ s t : State, step s = .next t → s.nextDrive.rst = false →
    (∃ new, t.responses = s.responses ++ new ∧ new.length ≤ 1) ∧
    (t.taken = s.taken ∨ ∃ r, s.rspOut = some r ∧ s.nextDrive.rspReady = true ∧ t.taken = s.taken ++ [r])

/-- O43 (R54). For the same edge with rsp_ready 1 and with rsp_ready 0, if both answer a next state, CONSTRUCTED,
STEP, PHASE, the command in flight, the draw counter and the responses in order are the same. -/
def Obligations.TakingAResponseHasNoSideEffect : Prop :=
  ∀ (s t t' : State) (d : Drive), clockEdge { d with rspReady := true } s = .next t →
    clockEdge { d with rspReady := false } s = .next t' →
    t.constructed = t'.constructed ∧ t.stepVec = t'.stepVec ∧ t.phaseVec = t'.phaseVec ∧
      t.inFlight = t'.inFlight ∧ t.nanDraws = t'.nanDraws ∧ t.responses = t'.responses

/-- O44 (R43, R46). Out of reset, with nothing in flight and the queue at RSP_DEPTH: an edge with rsp_ready = 0
changes nothing whatever command is offered, and an edge with rsp_ready = 1 hands over the oldest response,
after which cmd_ready is 1. -/
def Obligations.FullQueueHoldsTheEngine : Prop :=
  ∀ s : State, s.nextDrive.meetsTiming = true → s.nextDrive.rst = false → s.prevRst = false →
    s.inFlight = none → s.rsps.length = s.params.rspDepth → 1 ≤ s.params.rspDepth →
    (s.nextDrive.rspReady = false → step s = .next { s with script := s.script.tail }) ∧
    (s.nextDrive.rspReady = true →
      ∃ t, step s = .next t ∧ t.cmdReady = true ∧ t.rsps = s.rsps.tail ∧
        t.taken = s.taken ++ s.rsps.head?.toList)

/-- O45 (R148). Out of reset, with nothing in flight, an edge with cmd_valid = 0 and rsp_ready = 0 changes nothing
but the host's script. -/
def Obligations.QuietEdgeHoldsTheState : Prop :=
  ∀ s : State, s.nextDrive.meetsTiming = true → s.nextDrive.rst = false → s.nextDrive.cmdValid = false →
    s.nextDrive.rspReady = false → s.prevRst = false → s.inFlight = none →
    step s = .next { s with script := s.script.tail }

/-- O46 (R33, R160, R162). For every state and every drive with rst = 1 (a command or a taken response offered with
it has no effect), the next state is the reset state of the instance, with cmd_ready, rsp_valid and constructed
0; the model's draw counter, the rest of the host's script and its record stay. -/
def Obligations.ResetEdgeEntersTheResetState : Prop :=
  ∀ s : State, s.nextDrive.meetsTiming = true → s.nextDrive.rst = true →
    ∃ t, step s = .next t ∧
      t = { State.resetOf s.params with nanDraws := s.nanDraws, script := s.script.tail, taken := s.taken } ∧
      t.cmdReady = false ∧ t.rspValid = false ∧ t.constructedOut = false

/-- O47 (R33). CONSTRUCTED is 0, STEP and PHASE hold no value, the queue is empty, nothing is in flight, and
cmd_ready, rsp_valid and constructed are 0; State.reset is that state of one instance. -/
def Obligations.ResetStateValues : Prop :=
  (∀ p : Params, (State.resetOf p).constructed = false ∧ (State.resetOf p).stepVec = none ∧
      (State.resetOf p).phaseVec = none ∧ (State.resetOf p).rsps = [] ∧ (State.resetOf p).inFlight = none ∧
      (State.resetOf p).cmdReady = false ∧ (State.resetOf p).rspValid = false ∧
      (State.resetOf p).constructedOut = false) ∧
    ∃ p, State.reset = State.resetOf p

/-- O48 (R161). From the reset state of any instance with RSP_DEPTH at least 1, and any drive with rst = 0, the edge
changes nothing but the reset bit and the script, and cmd_ready is 1 afterwards. -/
def Obligations.FirstEdgeWithoutResetLeavesIt : Prop :=
  ∀ s : State, s.prevRst = true → s.inFlight = none → s.rsps = [] → 1 ≤ s.params.rspDepth →
    s.nextDrive.meetsTiming = true → s.nextDrive.rst = false →
    ∃ t, step s = .next t ∧ t = { s with prevRst := false, script := s.script.tail } ∧ t.cmdReady = true

/-- O49 (R41, R56). For every state whose next drive violates the timing of R41, the step is refused with
setupHoldViolated: the model gives such a drive no move, and says so by a refusal (log entry 8). -/
def Obligations.BadTimingHasNoMove : Prop :=
  ∀ s : State, s.nextDrive.meetsTiming = false → step s = .refused .setupHoldViolated

/-- O50 (R10, R67, R170). In every state, if a step answers a next state, the instance parameters are the same. That
State holds them is the model's choice (log entry 2). -/
def Obligations.InstanceNeverChanges : Prop :=
  ∀ s t : State, step s = .next t → t.params = s.params

/-- O51 (R21, R22, R23, R25). In every state, if a step changes one of them, it was a reset edge or the completing
edge of one of the commands named; only CONSTRUCT sets CONSTRUCTED and only reset clears it. -/
def Obligations.OnlyTheRuledCommandsWriteRegisters : Prop :=
  ∀ s t : State, step s = .next t → s.nextDrive.rst = false →
    (t.stepVec ≠ s.stepVec → ∃ c, s.inFlight = some c ∧ c.left ≤ 1 ∧
      ((∃ a b, c.instr = .construct a b) ∨ (∃ a b, c.instr = .setstep a b))) ∧
    (t.phaseVec ≠ s.phaseVec → ∃ c, s.inFlight = some c ∧ c.left ≤ 1 ∧
      ((∃ a b, c.instr = .construct a b) ∨ (∃ a b, c.instr = .advance a b))) ∧
    (t.constructed ≠ s.constructed → t.constructed = true ∧ ∃ c, s.inFlight = some c ∧ c.left ≤ 1 ∧
      ∃ a b, c.instr = .construct a b)

/-! ### Invariants every step keeps -/

/-- O52 (R25, R29, R33). From every state where each of STEP and PHASE holds a value exactly when CONSTRUCTED is 1,
a step gives such a state. -/
def Obligations.RegistersHeldExactlyWhenConstructed : Prop :=
  ∀ s t : State, s.regsHeld = true → step s = .next t → t.regsHeld = true

/-- O53 (R43, R46). From every state whose waiting responses, counting the one the command in flight will give, are
at most RSP_DEPTH, a step gives such a state: every completing command finds room for its response. -/
def Obligations.QueueNeverExceedsItsDepth : Prop :=
  ∀ s t : State, s.roomKept = true → step s = .next t → t.roomKept = true

/-- O54 (R20, R40, R62). From every state whose registers, queued responses and in-flight operands fit the format, a
step gives such a state, whatever the host drives. -/
def Obligations.EveryDatumStaysFLENBitsWide : Prop :=
  ∀ s t : State, s.widthsFit = true → step s = .next t → t.widthsFit = true

/-- O55 (R170). For an instance with valid parameters, from every state whose flight has between one edge and its
latency left, a step gives such a state. -/
def Obligations.FlightStaysWithinItsLatency : Prop :=
  ∀ s t : State, s.params.valid = true → s.flightTimed = true → step s = .next t → t.flightTimed = true

/-- O56 (R33, R160). After any step from any state, if the reset bit is 1 then CONSTRUCTED is 0, STEP and PHASE hold
no value, the queue is empty and nothing is in flight. -/
def Obligations.ResetBitMeansResetState : Prop :=
  ∀ s t : State, step s = .next t → t.resetClean = true ∧ t.prevRst = s.nextDrive.rst

/-- O57 (R8, R29, R33). For every instance with valid parameters, State.resetOf meets every invariant above; so does
State.reset. -/
def Obligations.ResetMeetsTheInvariants : Prop :=
  (∀ p : Params, p.valid = true → (State.resetOf p).inv = true) ∧ State.reset.inv = true

/-! ### Runs of edges -/

/-- O58 (R47, R102, R170, R171). For every number of edges without reset, from and to states with nothing in flight:
executing the commands that transferred, each as one atomic step in transfer order, gives the same CONSTRUCTED,
STEP, PHASE, draws and the same sequence of responses, whatever the latencies, RSP_DEPTH and handshake waits. -/
def Obligations.EdgesRefineAtomicCommands : Prop :=
  ∀ (k : Nat) (s t : State), s.quietFor k = true → s.inFlight = none → t.inFlight = none →
    runEdges k s = .next t →
    ∃ u, execAll (transferredIn k s) s = .next u ∧ u.constructed = t.constructed ∧ u.stepVec = t.stepVec ∧
      u.phaseVec = t.phaseVec ∧ u.nanDraws = t.nanDraws ∧ u.responses = t.responses

/-- O59 (R45, R170, R171). If the command in flight is not undefined and no reset comes, after as many edges as it
has left nothing is in flight and exactly one response more exists, taken or waiting. -/
def Obligations.TransferredCommandIsAnsweredInTime : Prop :=
  ∀ (s : State) (c : InFlight), s.inFlight = some c → 1 ≤ c.left → s.quietFor c.left = true →
    commandUndefined c.instr s = false →
    ∃ t r, runEdges c.left s = .next t ∧ t.inFlight = none ∧
      t.responses = s.responses ++ [r]
end

