-- ==== Sys2Proof/Laws/Datapath.lean ====
section
/-! SUPPORT. The fields of an encoding, and what the datapath's operations answer: every result is a FLEN-bit word, and a
result that should be a NaN is one (41_datapath.md R110 to R112). -/

namespace Sys2Proof.Machine

/-! ### sizes -/

theorem infLow_lt (f : Fmt) : infLow f + 2 ^ f.fracBits = 2 ^ (f.flen - 1) := by cases f <;> rfl

theorem flen_pred (f : Fmt) : f.flen - 1 = f.fracBits + f.expBits := by cases f <;> rfl

theorem roundMag_le (f : Fmt) (num den : Nat) : roundMag f num den ≤ infLow f := Nat.min_le_right _ _

/-! ### the fields of `withSign` -/

theorem withSign_toNat (f : Fmt) (neg : Bool) (low : Nat) (h : low < 2 ^ (f.flen - 1)) :
    (withSign f neg low).toNat = low + if neg then 2 ^ (f.flen - 1) else 0 := by
  cases f <;> cases neg <;> simp only [withSign, Fmt.flen] at * <;> simp at * <;> omega

theorem withSign_fits (f : Fmt) (neg : Bool) (low : Nat) (h : low < 2 ^ (f.flen - 1)) :
    Word.fits f (withSign f neg low) = true := by
  rw [Word.fits, decide_eq_true_eq, withSign_toNat f neg low h]
  cases f <;> cases neg <;> simp only [Fmt.flen] at * <;> simp at * <;> omega

@[simp] theorem fracField_withSign (f : Fmt) (neg : Bool) (low : Nat) (h : low < 2 ^ (f.flen - 1)) :
    fracField f (withSign f neg low) = low % 2 ^ f.fracBits := by
  rw [fracField, withSign_toNat f neg low h]
  cases f <;> cases neg <;> simp [Fmt.flen, Fmt.fracBits] <;> omega

@[simp] theorem expField_withSign (f : Fmt) (neg : Bool) (low : Nat) (h : low < 2 ^ (f.flen - 1)) :
    expField f (withSign f neg low) = low / 2 ^ f.fracBits := by
  rw [expField, withSign_toNat f neg low h]
  cases f <;> cases neg <;> simp only [Fmt.flen, Fmt.fracBits, Fmt.expBits] at * <;> simp at * <;> omega

/-- The sign bit read as a number. -/
theorem signBit_eq (f : Fmt) (w : Word) : signBit f w = (w.toNat / 2 ^ (f.flen - 1) % 2 == 1) := by
  rw [signBit, BitVec.getLsbD, Nat.testBit_eq_decide_div_mod_eq]
  rfl

@[simp] theorem signBit_withSign (f : Fmt) (neg : Bool) (low : Nat) (h : low < 2 ^ (f.flen - 1)) :
    signBit f (withSign f neg low) = neg := by
  rw [signBit_eq, withSign_toNat f neg low h]
  cases f <;> cases neg <;> simp only [Fmt.flen] at * <;> simp at * <;> omega

/-! ### kinds of data -/

/-- A datum is exactly one of finite, infinite and NaN. -/
theorem isFinite_eq (f : Fmt) (w : Word) : isFinite f w = (!isNaN f w && !isInf f w) := by
  unfold isFinite isNaN isInf
  cases h : (expField f w == expMax f) <;> cases h' : (fracField f w == 0) <;> simp_all

theorem isInf_withSign_infLow (f : Fmt) (neg : Bool) : isInf f (withSign f neg (infLow f)) = true := by
  cases f <;> cases neg <;> decide +kernel

/-- R112: a drawn encoding is a NaN. -/
theorem isNaN_nanOf (f : Fmt) (n : Nat) : isNaN f (nanOf f n) = true := by
  have h : infLow f + 1 + n / 2 % (2 ^ f.fracBits - 1) < 2 ^ (f.flen - 1) := by
    cases f <;> simp only [infLow, expMax, Fmt.flen, Fmt.fracBits, Fmt.expBits] <;> simp <;> omega
  unfold nanOf isNaN
  rw [expField_withSign f _ _ h, fracField_withSign f _ _ h]
  cases f <;> simp [infLow, expMax, Fmt.fracBits, Fmt.expBits] <;> omega

theorem nanOf_fits (f : Fmt) (n : Nat) : Word.fits f (nanOf f n) = true := by
  apply withSign_fits
  cases f <;> simp only [infLow, expMax, Fmt.flen, Fmt.fracBits, Fmt.expBits] <;> simp <;> omega

/-! ### every result is FLEN bits wide -/

theorem infLow_lt_sign (f : Fmt) : infLow f < 2 ^ (f.flen - 1) := by cases f <;> decide

theorem fmul_fits (f : Fmt) (d : Nat) (x y : Word) : Word.fits f (fmul f d x y) = true := by
  unfold fmul drawnNaN
  split
  · exact nanOf_fits f _
  split
  · exact nanOf_fits f _
  split
  · exact withSign_fits f _ _ (infLow_lt_sign f)
  · exact withSign_fits f _ _ (Nat.lt_of_le_of_lt (roundMag_le f _ _) (infLow_lt_sign f))

theorem fadd_fits (f : Fmt) (d : Nat) (x y : Word) : Word.fits f (fadd f d x y) = true := by
  unfold fadd drawnNaN
  split
  · exact nanOf_fits f _
  split
  · exact nanOf_fits f _
  split
  · exact withSign_fits f _ _ (infLow_lt_sign f)
  split
  · exact withSign_fits f _ _ (infLow_lt_sign f)
  split
  · exact withSign_fits f _ _ (by cases f <;> decide)
  · exact withSign_fits f _ _ (Nat.lt_of_le_of_lt (roundMag_le f _ _) (infLow_lt_sign f))

theorem rotate_fits (f : Fmt) (d : Nat) (p s : Pair) : Pair.fits f (rotate f d p s) = true := by
  simp only [rotate, fsub, Pair.fits, fadd_fits, Bool.and_self]

theorem portWord_fits (f : Fmt) (w : Word) : Word.fits f (portWord f w) = true := by
  rw [Word.fits, decide_eq_true_eq, portWord, BitVec.toNat_setWidth]
  refine Nat.lt_of_le_of_lt (Nat.mod_le _ _) ?_
  rw [BitVec.toNat_setWidth]
  exact Nat.mod_lt _ (Nat.two_pow_pos _)

/-- R63: a word that fits crosses the port bit for bit. -/
theorem portWord_of_fits (f : Fmt) (w : Word) (h : Word.fits f w = true) : portWord f w = w := by
  rw [Word.fits, decide_eq_true_eq] at h
  apply BitVec.eq_of_toNat_eq
  rw [portWord, BitVec.toNat_setWidth, BitVec.toNat_setWidth, Nat.mod_eq_of_lt h,
    Nat.mod_eq_of_lt w.isLt]

theorem fits_binary32 (v : BitVec 32) : Word.fits .binary32 (v.setWidth 64) = true := by
  have := v.isLt
  rw [Word.fits, decide_eq_true_eq, BitVec.toNat_setWidth]
  exact Nat.lt_of_le_of_lt (Nat.mod_le _ _) this

theorem fits_binary64 (w : Word) : Word.fits .binary64 w = true := decide_eq_true w.isLt

theorem sinCos_fits (f : Fmt) (x : Word) : Pair.fits f (sinCos f x) = true := by
  cases f
  · exact Bool.and_eq_true_iff.mpr ⟨fits_binary32 _, fits_binary32 _⟩
  · exact Bool.and_eq_true_iff.mpr ⟨fits_binary64 _, fits_binary64 _⟩

end Sys2Proof.Machine
end

