-- ==== Sys2Proof/Laws/Encoding.lean ====
section
/-! SUPPORT. Facts about the packed words of 30_encoding.md. -/

namespace Sys2Proof

/-- The fields of a packed word are FLEN bits wide. -/
theorem packedLo_fits (f : Fmt) (w : BitVec f.packedBits) : Word.fits f (packedLo f w) = true := by
  rw [Word.fits, decide_eq_true_eq, packedLo, BitVec.toNat_setWidth]
  exact Nat.lt_of_le_of_lt (Nat.mod_le _ _) (BitVec.isLt _)

theorem packedHi_fits (f : Fmt) (w : BitVec f.packedBits) : Word.fits f (packedHi f w) = true := by
  rw [Word.fits, decide_eq_true_eq, packedHi, BitVec.toNat_setWidth]
  exact Nat.lt_of_le_of_lt (Nat.mod_le _ _) (BitVec.isLt _)

end Sys2Proof
end

