-- ==== Sys2Proof/Laws/State.lean ====
section
/-! SUPPORT. What each update of the state does to each field: one lemma per field per update, all by unfolding the update
once. -/

namespace Sys2Proof.Machine

/-! ### setConstructed -/

@[simp] theorem State.setConstructed_params (s : State) (v : Bool) : (s.setConstructed v).params = s.params := rfl
@[simp] theorem State.setConstructed_constructed (s : State) (v : Bool) : (s.setConstructed v).constructed = v := rfl
@[simp] theorem State.setConstructed_stepVec (s : State) (v : Bool) : (s.setConstructed v).stepVec = s.stepVec := rfl
@[simp] theorem State.setConstructed_phaseVec (s : State) (v : Bool) : (s.setConstructed v).phaseVec = s.phaseVec := rfl
@[simp] theorem State.setConstructed_rsps (s : State) (v : Bool) : (s.setConstructed v).rsps = s.rsps := rfl
@[simp] theorem State.setConstructed_inFlight (s : State) (v : Bool) : (s.setConstructed v).inFlight = s.inFlight := rfl
@[simp] theorem State.setConstructed_prevRst (s : State) (v : Bool) : (s.setConstructed v).prevRst = s.prevRst := rfl
@[simp] theorem State.setConstructed_nanDraws (s : State) (v : Bool) : (s.setConstructed v).nanDraws = s.nanDraws := rfl
@[simp] theorem State.setConstructed_script (s : State) (v : Bool) : (s.setConstructed v).script = s.script := rfl
@[simp] theorem State.setConstructed_taken (s : State) (v : Bool) : (s.setConstructed v).taken = s.taken := rfl
@[simp] theorem State.setConstructed_fmt (s : State) (v : Bool) : (s.setConstructed v).fmt = s.fmt := rfl

/-! ### writeStep -/

@[simp] theorem State.writeStep_params (s : State) (v : Pair) : (s.writeStep v).params = s.params := rfl
@[simp] theorem State.writeStep_constructed (s : State) (v : Pair) : (s.writeStep v).constructed = s.constructed := rfl
@[simp] theorem State.writeStep_stepVec (s : State) (v : Pair) : (s.writeStep v).stepVec = some v := rfl
@[simp] theorem State.writeStep_phaseVec (s : State) (v : Pair) : (s.writeStep v).phaseVec = s.phaseVec := rfl
@[simp] theorem State.writeStep_rsps (s : State) (v : Pair) : (s.writeStep v).rsps = s.rsps := rfl
@[simp] theorem State.writeStep_inFlight (s : State) (v : Pair) : (s.writeStep v).inFlight = s.inFlight := rfl
@[simp] theorem State.writeStep_prevRst (s : State) (v : Pair) : (s.writeStep v).prevRst = s.prevRst := rfl
@[simp] theorem State.writeStep_nanDraws (s : State) (v : Pair) : (s.writeStep v).nanDraws = s.nanDraws := rfl
@[simp] theorem State.writeStep_script (s : State) (v : Pair) : (s.writeStep v).script = s.script := rfl
@[simp] theorem State.writeStep_taken (s : State) (v : Pair) : (s.writeStep v).taken = s.taken := rfl
@[simp] theorem State.writeStep_fmt (s : State) (v : Pair) : (s.writeStep v).fmt = s.fmt := rfl

/-! ### writePhase -/

@[simp] theorem State.writePhase_params (s : State) (v : Pair) : (s.writePhase v).params = s.params := rfl
@[simp] theorem State.writePhase_constructed (s : State) (v : Pair) : (s.writePhase v).constructed = s.constructed := rfl
@[simp] theorem State.writePhase_stepVec (s : State) (v : Pair) : (s.writePhase v).stepVec = s.stepVec := rfl
@[simp] theorem State.writePhase_phaseVec (s : State) (v : Pair) : (s.writePhase v).phaseVec = some v := rfl
@[simp] theorem State.writePhase_rsps (s : State) (v : Pair) : (s.writePhase v).rsps = s.rsps := rfl
@[simp] theorem State.writePhase_inFlight (s : State) (v : Pair) : (s.writePhase v).inFlight = s.inFlight := rfl
@[simp] theorem State.writePhase_prevRst (s : State) (v : Pair) : (s.writePhase v).prevRst = s.prevRst := rfl
@[simp] theorem State.writePhase_nanDraws (s : State) (v : Pair) : (s.writePhase v).nanDraws = s.nanDraws := rfl
@[simp] theorem State.writePhase_script (s : State) (v : Pair) : (s.writePhase v).script = s.script := rfl
@[simp] theorem State.writePhase_taken (s : State) (v : Pair) : (s.writePhase v).taken = s.taken := rfl
@[simp] theorem State.writePhase_fmt (s : State) (v : Pair) : (s.writePhase v).fmt = s.fmt := rfl

/-! ### advanceDraws -/

@[simp] theorem State.advanceDraws_params (s : State) : (s.advanceDraws).params = s.params := rfl
@[simp] theorem State.advanceDraws_constructed (s : State) : (s.advanceDraws).constructed = s.constructed := rfl
@[simp] theorem State.advanceDraws_stepVec (s : State) : (s.advanceDraws).stepVec = s.stepVec := rfl
@[simp] theorem State.advanceDraws_phaseVec (s : State) : (s.advanceDraws).phaseVec = s.phaseVec := rfl
@[simp] theorem State.advanceDraws_rsps (s : State) : (s.advanceDraws).rsps = s.rsps := rfl
@[simp] theorem State.advanceDraws_inFlight (s : State) : (s.advanceDraws).inFlight = s.inFlight := rfl
@[simp] theorem State.advanceDraws_prevRst (s : State) : (s.advanceDraws).prevRst = s.prevRst := rfl
@[simp] theorem State.advanceDraws_nanDraws (s : State) : (s.advanceDraws).nanDraws = s.nanDraws + drawsPerRotate := rfl
@[simp] theorem State.advanceDraws_script (s : State) : (s.advanceDraws).script = s.script := rfl
@[simp] theorem State.advanceDraws_taken (s : State) : (s.advanceDraws).taken = s.taken := rfl
@[simp] theorem State.advanceDraws_fmt (s : State) : (s.advanceDraws).fmt = s.fmt := rfl

/-! ### respond -/

@[simp] theorem State.respond_params (s : State) (c : RspCode) (x y : Word) : (s.respond c x y).params = s.params := rfl
@[simp] theorem State.respond_constructed (s : State) (c : RspCode) (x y : Word) : (s.respond c x y).constructed = s.constructed := rfl
@[simp] theorem State.respond_stepVec (s : State) (c : RspCode) (x y : Word) : (s.respond c x y).stepVec = s.stepVec := rfl
@[simp] theorem State.respond_phaseVec (s : State) (c : RspCode) (x y : Word) : (s.respond c x y).phaseVec = s.phaseVec := rfl
@[simp] theorem State.respond_rsps (s : State) (c : RspCode) (x y : Word) : (s.respond c x y).rsps = s.rsps ++ [⟨c, x, y⟩] := rfl
@[simp] theorem State.respond_inFlight (s : State) (c : RspCode) (x y : Word) : (s.respond c x y).inFlight = s.inFlight := rfl
@[simp] theorem State.respond_prevRst (s : State) (c : RspCode) (x y : Word) : (s.respond c x y).prevRst = s.prevRst := rfl
@[simp] theorem State.respond_nanDraws (s : State) (c : RspCode) (x y : Word) : (s.respond c x y).nanDraws = s.nanDraws := rfl
@[simp] theorem State.respond_script (s : State) (c : RspCode) (x y : Word) : (s.respond c x y).script = s.script := rfl
@[simp] theorem State.respond_taken (s : State) (c : RspCode) (x y : Word) : (s.respond c x y).taken = s.taken := rfl
@[simp] theorem State.respond_fmt (s : State) (c : RspCode) (x y : Word) : (s.respond c x y).fmt = s.fmt := rfl

/-! ### respondZero -/

@[simp] theorem State.respondZero_params (s : State) (c : RspCode) : (s.respondZero c).params = s.params := rfl
@[simp] theorem State.respondZero_constructed (s : State) (c : RspCode) : (s.respondZero c).constructed = s.constructed := rfl
@[simp] theorem State.respondZero_stepVec (s : State) (c : RspCode) : (s.respondZero c).stepVec = s.stepVec := rfl
@[simp] theorem State.respondZero_phaseVec (s : State) (c : RspCode) : (s.respondZero c).phaseVec = s.phaseVec := rfl
@[simp] theorem State.respondZero_rsps (s : State) (c : RspCode) : (s.respondZero c).rsps = s.rsps ++ [⟨c, posZero, posZero⟩] := rfl
@[simp] theorem State.respondZero_inFlight (s : State) (c : RspCode) : (s.respondZero c).inFlight = s.inFlight := rfl
@[simp] theorem State.respondZero_prevRst (s : State) (c : RspCode) : (s.respondZero c).prevRst = s.prevRst := rfl
@[simp] theorem State.respondZero_nanDraws (s : State) (c : RspCode) : (s.respondZero c).nanDraws = s.nanDraws := rfl
@[simp] theorem State.respondZero_script (s : State) (c : RspCode) : (s.respondZero c).script = s.script := rfl
@[simp] theorem State.respondZero_taken (s : State) (c : RspCode) : (s.respondZero c).taken = s.taken := rfl
@[simp] theorem State.respondZero_fmt (s : State) (c : RspCode) : (s.respondZero c).fmt = s.fmt := rfl

/-! ### setPrevRst -/

@[simp] theorem State.setPrevRst_params (s : State) (v : Bool) : (s.setPrevRst v).params = s.params := rfl
@[simp] theorem State.setPrevRst_constructed (s : State) (v : Bool) : (s.setPrevRst v).constructed = s.constructed := rfl
@[simp] theorem State.setPrevRst_stepVec (s : State) (v : Bool) : (s.setPrevRst v).stepVec = s.stepVec := rfl
@[simp] theorem State.setPrevRst_phaseVec (s : State) (v : Bool) : (s.setPrevRst v).phaseVec = s.phaseVec := rfl
@[simp] theorem State.setPrevRst_rsps (s : State) (v : Bool) : (s.setPrevRst v).rsps = s.rsps := rfl
@[simp] theorem State.setPrevRst_inFlight (s : State) (v : Bool) : (s.setPrevRst v).inFlight = s.inFlight := rfl
@[simp] theorem State.setPrevRst_prevRst (s : State) (v : Bool) : (s.setPrevRst v).prevRst = v := rfl
@[simp] theorem State.setPrevRst_nanDraws (s : State) (v : Bool) : (s.setPrevRst v).nanDraws = s.nanDraws := rfl
@[simp] theorem State.setPrevRst_script (s : State) (v : Bool) : (s.setPrevRst v).script = s.script := rfl
@[simp] theorem State.setPrevRst_taken (s : State) (v : Bool) : (s.setPrevRst v).taken = s.taken := rfl
@[simp] theorem State.setPrevRst_fmt (s : State) (v : Bool) : (s.setPrevRst v).fmt = s.fmt := rfl

/-! ### setInFlight -/

@[simp] theorem State.setInFlight_params (s : State) (v : Option InFlight) : (s.setInFlight v).params = s.params := rfl
@[simp] theorem State.setInFlight_constructed (s : State) (v : Option InFlight) : (s.setInFlight v).constructed = s.constructed := rfl
@[simp] theorem State.setInFlight_stepVec (s : State) (v : Option InFlight) : (s.setInFlight v).stepVec = s.stepVec := rfl
@[simp] theorem State.setInFlight_phaseVec (s : State) (v : Option InFlight) : (s.setInFlight v).phaseVec = s.phaseVec := rfl
@[simp] theorem State.setInFlight_rsps (s : State) (v : Option InFlight) : (s.setInFlight v).rsps = s.rsps := rfl
@[simp] theorem State.setInFlight_inFlight (s : State) (v : Option InFlight) : (s.setInFlight v).inFlight = v := rfl
@[simp] theorem State.setInFlight_prevRst (s : State) (v : Option InFlight) : (s.setInFlight v).prevRst = s.prevRst := rfl
@[simp] theorem State.setInFlight_nanDraws (s : State) (v : Option InFlight) : (s.setInFlight v).nanDraws = s.nanDraws := rfl
@[simp] theorem State.setInFlight_script (s : State) (v : Option InFlight) : (s.setInFlight v).script = s.script := rfl
@[simp] theorem State.setInFlight_taken (s : State) (v : Option InFlight) : (s.setInFlight v).taken = s.taken := rfl
@[simp] theorem State.setInFlight_fmt (s : State) (v : Option InFlight) : (s.setInFlight v).fmt = s.fmt := rfl

/-! ### dropDrive -/

@[simp] theorem State.dropDrive_params (s : State) : (s.dropDrive).params = s.params := rfl
@[simp] theorem State.dropDrive_constructed (s : State) : (s.dropDrive).constructed = s.constructed := rfl
@[simp] theorem State.dropDrive_stepVec (s : State) : (s.dropDrive).stepVec = s.stepVec := rfl
@[simp] theorem State.dropDrive_phaseVec (s : State) : (s.dropDrive).phaseVec = s.phaseVec := rfl
@[simp] theorem State.dropDrive_rsps (s : State) : (s.dropDrive).rsps = s.rsps := rfl
@[simp] theorem State.dropDrive_inFlight (s : State) : (s.dropDrive).inFlight = s.inFlight := rfl
@[simp] theorem State.dropDrive_prevRst (s : State) : (s.dropDrive).prevRst = s.prevRst := rfl
@[simp] theorem State.dropDrive_nanDraws (s : State) : (s.dropDrive).nanDraws = s.nanDraws := rfl
@[simp] theorem State.dropDrive_script (s : State) : (s.dropDrive).script = s.script.tail := rfl
@[simp] theorem State.dropDrive_taken (s : State) : (s.dropDrive).taken = s.taken := rfl
@[simp] theorem State.dropDrive_fmt (s : State) : (s.dropDrive).fmt = s.fmt := rfl

/-! ### popResponse -/

@[simp] theorem State.popResponse_params (s : State) : (s.popResponse).params = s.params := rfl
@[simp] theorem State.popResponse_constructed (s : State) : (s.popResponse).constructed = s.constructed := rfl
@[simp] theorem State.popResponse_stepVec (s : State) : (s.popResponse).stepVec = s.stepVec := rfl
@[simp] theorem State.popResponse_phaseVec (s : State) : (s.popResponse).phaseVec = s.phaseVec := rfl
@[simp] theorem State.popResponse_rsps (s : State) : (s.popResponse).rsps = s.rsps.tail := rfl
@[simp] theorem State.popResponse_inFlight (s : State) : (s.popResponse).inFlight = s.inFlight := rfl
@[simp] theorem State.popResponse_prevRst (s : State) : (s.popResponse).prevRst = s.prevRst := rfl
@[simp] theorem State.popResponse_nanDraws (s : State) : (s.popResponse).nanDraws = s.nanDraws := rfl
@[simp] theorem State.popResponse_script (s : State) : (s.popResponse).script = s.script := rfl
@[simp] theorem State.popResponse_taken (s : State) : (s.popResponse).taken = s.taken ++ s.rsps.head?.toList := rfl
@[simp] theorem State.popResponse_fmt (s : State) : (s.popResponse).fmt = s.fmt := rfl

/-! ### enterReset -/

@[simp] theorem State.enterReset_params (s : State) : (s.enterReset).params = s.params := rfl
@[simp] theorem State.enterReset_constructed (s : State) : (s.enterReset).constructed = false := rfl
@[simp] theorem State.enterReset_stepVec (s : State) : (s.enterReset).stepVec = none := rfl
@[simp] theorem State.enterReset_phaseVec (s : State) : (s.enterReset).phaseVec = none := rfl
@[simp] theorem State.enterReset_rsps (s : State) : (s.enterReset).rsps = [] := rfl
@[simp] theorem State.enterReset_inFlight (s : State) : (s.enterReset).inFlight = none := rfl
@[simp] theorem State.enterReset_prevRst (s : State) : (s.enterReset).prevRst = true := rfl
@[simp] theorem State.enterReset_nanDraws (s : State) : (s.enterReset).nanDraws = s.nanDraws := rfl
@[simp] theorem State.enterReset_script (s : State) : (s.enterReset).script = s.script := rfl
@[simp] theorem State.enterReset_taken (s : State) : (s.enterReset).taken = s.taken := rfl
@[simp] theorem State.enterReset_fmt (s : State) : (s.enterReset).fmt = s.fmt := rfl

/-! ### the two sides of an edge -/

@[simp] theorem State.acceptCommand_params (d : Drive) (s : State) : (s.acceptCommand d).params = s.params := by
  unfold State.acceptCommand; split <;> rfl
@[simp] theorem State.acceptCommand_constructed (d : Drive) (s : State) : (s.acceptCommand d).constructed = s.constructed := by
  unfold State.acceptCommand; split <;> rfl
@[simp] theorem State.acceptCommand_stepVec (d : Drive) (s : State) : (s.acceptCommand d).stepVec = s.stepVec := by
  unfold State.acceptCommand; split <;> rfl
@[simp] theorem State.acceptCommand_phaseVec (d : Drive) (s : State) : (s.acceptCommand d).phaseVec = s.phaseVec := by
  unfold State.acceptCommand; split <;> rfl
@[simp] theorem State.acceptCommand_rsps (d : Drive) (s : State) : (s.acceptCommand d).rsps = s.rsps := by
  unfold State.acceptCommand; split <;> rfl
@[simp] theorem State.acceptCommand_prevRst (d : Drive) (s : State) : (s.acceptCommand d).prevRst = s.prevRst := by
  unfold State.acceptCommand; split <;> rfl
@[simp] theorem State.acceptCommand_nanDraws (d : Drive) (s : State) : (s.acceptCommand d).nanDraws = s.nanDraws := by
  unfold State.acceptCommand; split <;> rfl
@[simp] theorem State.acceptCommand_script (d : Drive) (s : State) : (s.acceptCommand d).script = s.script := by
  unfold State.acceptCommand; split <;> rfl
@[simp] theorem State.acceptCommand_taken (d : Drive) (s : State) : (s.acceptCommand d).taken = s.taken := by
  unfold State.acceptCommand; split <;> rfl
@[simp] theorem State.acceptCommand_fmt (d : Drive) (s : State) : (s.acceptCommand d).fmt = s.fmt := by
  unfold State.acceptCommand; split <;> rfl
@[simp] theorem State.takeResponse_params (d : Drive) (s : State) : (s.takeResponse d).params = s.params := by
  unfold State.takeResponse; split <;> rfl
@[simp] theorem State.takeResponse_constructed (d : Drive) (s : State) : (s.takeResponse d).constructed = s.constructed := by
  unfold State.takeResponse; split <;> rfl
@[simp] theorem State.takeResponse_stepVec (d : Drive) (s : State) : (s.takeResponse d).stepVec = s.stepVec := by
  unfold State.takeResponse; split <;> rfl
@[simp] theorem State.takeResponse_phaseVec (d : Drive) (s : State) : (s.takeResponse d).phaseVec = s.phaseVec := by
  unfold State.takeResponse; split <;> rfl
@[simp] theorem State.takeResponse_inFlight (d : Drive) (s : State) : (s.takeResponse d).inFlight = s.inFlight := by
  unfold State.takeResponse; split <;> rfl
@[simp] theorem State.takeResponse_prevRst (d : Drive) (s : State) : (s.takeResponse d).prevRst = s.prevRst := by
  unfold State.takeResponse; split <;> rfl
@[simp] theorem State.takeResponse_nanDraws (d : Drive) (s : State) : (s.takeResponse d).nanDraws = s.nanDraws := by
  unfold State.takeResponse; split <;> rfl
@[simp] theorem State.takeResponse_script (d : Drive) (s : State) : (s.takeResponse d).script = s.script := by
  unfold State.takeResponse; split <;> rfl
@[simp] theorem State.takeResponse_fmt (d : Drive) (s : State) : (s.takeResponse d).fmt = s.fmt := by
  unfold State.takeResponse; split <;> rfl

/-- Consuming a drive changes no output port. -/
@[simp] theorem State.dropDrive_cmdReady (s : State) : s.dropDrive.cmdReady = s.cmdReady := rfl
@[simp] theorem State.dropDrive_rspValid (s : State) : s.dropDrive.rspValid = s.rspValid := rfl
@[simp] theorem State.dropDrive_rspOut (s : State) : s.dropDrive.rspOut = s.rspOut := rfl

theorem State.acceptCommand_of_not (d : Drive) (s : State) (h : cmdTransfers d s = false) :
    s.acceptCommand d = s := by simp [State.acceptCommand, h]

theorem State.takeResponse_of_not (d : Drive) (s : State) (h : rspTransfers d s = false) :
    s.takeResponse d = s := by simp [State.takeResponse, h]

theorem State.takeResponse_of (d : Drive) (s : State) (h : rspTransfers d s = true) :
    s.takeResponse d = s.popResponse := by simp [State.takeResponse, h]

/-- Taking a response loses none (R46): it moves from the queue to the host's record. -/
theorem State.takeResponse_responses (d : Drive) (s : State) :
    (s.takeResponse d).taken ++ (s.takeResponse d).rsps = s.taken ++ s.rsps := by
  unfold State.takeResponse
  split
  · cases h : s.rsps <;> simp [h]
  · rfl

/-- The queue never grows when a response is taken. -/
theorem State.takeResponse_length (d : Drive) (s : State) :
    (s.takeResponse d).rsps.length ≤ s.rsps.length := by
  unfold State.takeResponse
  split <;> simp

/-- What is queued after a response is taken was queued before. -/
theorem State.mem_takeResponse (d : Drive) (s : State) {r : Response}
    (h : r ∈ (s.takeResponse d).rsps) : r ∈ s.rsps := by
  unfold State.takeResponse at h
  split at h
  · exact List.mem_of_mem_tail h
  · exact h

end Sys2Proof.Machine
end

