-- ==== Sys2Proof/Laws/Ops.lean ====
section
/-! SUPPORT. Everything the shared operations and the meanings can do, said once: later proofs cite these and unfold
neither `exec` nor `clockEdge`. -/

namespace Sys2Proof.Machine

/-! ### what a command can do -/

/-- If ADVANCE answers a next state, it rotated (R94) or raised NOT_CONSTRUCTED (R133). -/
theorem execAdvance_cases {a b : Word} {s t : State} (h : execAdvance a b s = .next t) :
    (∃ p w, s.constructed = true ∧ s.phaseVec = some p ∧ s.stepVec = some w ∧
      t = ((s.writePhase (rotate s.fmt s.nanDraws p w)).advanceDraws).respond .ok p.sin p.cos) ∨
    ((s.constructed = false ∨ s.phaseVec = none ∨ s.stepVec = none) ∧ t = s.respondZero .notConstructed) := by
  unfold execAdvance at h
  split at h
  · next p w hc hp hw => exact .inl ⟨p, w, hc, hp, hw, by injection h with h; exact h.symm⟩
  · next hn =>
    refine .inr ⟨?_, by unfold raiseError at h; injection h with h; exact h.symm⟩
    cases hc : s.constructed with
    | false => exact .inl rfl
    | true =>
      cases hp : s.phaseVec with
      | none => exact .inr (.inl rfl)
      | some p =>
        cases hw : s.stepVec with
        | none => exact .inr (.inr rfl)
        | some w => exact absurd hw (fun hw => hn p w hc hp hw)

/-- If SETSTEP answers a next state, it wrote STEP (R88) or raised NOT_CONSTRUCTED (R133). -/
theorem execSetstep_cases {a b : Word} {s t : State} (h : execSetstep a b s = .next t) :
    (s.constructed = true ∧ isFinite s.fmt a = true ∧
      t = (s.writeStep (sinCos s.fmt (portWord s.fmt a))).respondZero .ok) ∨
    (s.constructed = false ∧ t = s.respondZero .notConstructed) := by
  unfold execSetstep at h
  split at h
  · next hc => exact .inr ⟨hc, by unfold raiseError at h; injection h with h; exact h.symm⟩
  · next hc =>
    split at h
    · cases h
    · next hf => exact .inl ⟨by simpa using hc, by simpa using hf, by injection h with h; exact h.symm⟩

/-- If CONSTRUCT answers a next state, it loaded both pairs (R82). -/
theorem execConstruct_cases {a b : Word} {s t : State} (h : execConstruct a b s = .next t) :
    isFinite s.fmt a = true ∧ isFinite s.fmt b = true ∧
      t = (((s.writeStep (sinCos s.fmt (portWord s.fmt b))).writePhase
        (sinCos s.fmt (portWord s.fmt a))).setConstructed true).respondZero .ok := by
  unfold execConstruct at h
  split at h
  · cases h
  · next hf =>
    rw [not_or] at hf
    exact ⟨by simpa using hf.1, by simpa using hf.2, by injection h with h; exact h.symm⟩

/-- The reserved opcode raises ILLEGAL_CMD (R100). -/
theorem execReserved_cases {a b : Word} {s t : State} (h : execReserved a b s = .next t) :
    t = s.respondZero .illegalCmd := by
  unfold execReserved raiseError at h
  injection h with h
  exact h.symm

/-- Everything a command leaves alone, and the one response it appends (R21, R45). -/
theorem exec_next {i : Instr} {s t : State} (h : exec i s = .next t) :
    t.params = s.params ∧ t.inFlight = s.inFlight ∧ t.prevRst = s.prevRst ∧ t.script = s.script ∧
      t.taken = s.taken ∧ ∃ r, t.rsps = s.rsps ++ [r] := by
  cases i with
  | advance a b =>
    rcases execAdvance_cases (a := a) (b := b) h with ⟨p, w, -, -, -, rfl⟩ | ⟨-, rfl⟩ <;> simp
  | setstep a b => rcases execSetstep_cases (a := a) (b := b) h with ⟨-, -, rfl⟩ | ⟨-, rfl⟩ <;> simp
  | construct a b => obtain ⟨-, -, rfl⟩ := execConstruct_cases h; simp
  | reserved a b => obtain rfl := execReserved_cases (a := a) (b := b) h; simp

/-! ### what an edge can do -/

/-- If an edge answers a next state, it was a reset edge, or an edge with nothing in flight, or the edge a
command completes at, or an edge that counts down (R160, R42, R170). -/
theorem clockEdge_cases {d : Drive} {s t : State} (h : clockEdge d s = .next t) :
    d.meetsTiming = true ∧
    ((d.rst = true ∧ t = s.enterReset) ∨
     (d.rst = false ∧ s.inFlight = none ∧ t = ((s.acceptCommand d).takeResponse d).setPrevRst false) ∨
     (d.rst = false ∧ ∃ c, s.inFlight = some c ∧ c.left ≤ 1 ∧
        exec c.instr (((s.takeResponse d).setInFlight none).setPrevRst false) = .next t) ∨
     (d.rst = false ∧ ∃ c, s.inFlight = some c ∧ 1 < c.left ∧
        t = ((s.takeResponse d).setInFlight (some { c with left := c.left - 1 })).setPrevRst false)) := by
  unfold clockEdge at h
  split at h
  · cases h
  · next hm =>
    refine ⟨by simpa using hm, ?_⟩
    split at h
    · next hr => exact .inl ⟨hr, by injection h with h; exact h.symm⟩
    · next hr =>
      have hr' : d.rst = false := by simpa using hr
      split at h
      · next hn => exact .inr (.inl ⟨hr', hn, by injection h with h; exact h.symm⟩)
      · next c hc =>
        split at h
        · next hl => exact .inr (.inr (.inl ⟨hr', c, hc, hl, h⟩))
        · next hl =>
          exact .inr (.inr (.inr ⟨hr', c, hc, by omega, by injection h with h; exact h.symm⟩))

/-- The fields a command's outcome depends on: two states that agree on them get the same outcome, up to what
the command leaves alone, and the same response. -/
theorem exec_congr {i : Instr} {s s' t : State} (hp : s'.params = s.params)
    (hc : s'.constructed = s.constructed) (hs : s'.stepVec = s.stepVec) (hph : s'.phaseVec = s.phaseVec)
    (hn : s'.nanDraws = s.nanDraws) (h : exec i s = .next t) :
    ∃ t', exec i s' = .next t' ∧ t'.constructed = t.constructed ∧ t'.stepVec = t.stepVec ∧
      t'.phaseVec = t.phaseVec ∧ t'.nanDraws = t.nanDraws ∧
      ∃ r, t.rsps = s.rsps ++ [r] ∧ t'.rsps = s'.rsps ++ [r] := by
  have hf : s'.fmt = s.fmt := by simp [State.fmt, hp]
  cases i with
  | advance a b =>
    rcases execAdvance_cases (a := a) (b := b) h with ⟨p, w, h1, h2, h3, rfl⟩ | ⟨hh, rfl⟩
    · refine ⟨_, by simp only [exec, execAdvance, hc, hs, hph, h1, h2, h3]; rfl, ?_⟩
      simp [hn, hf, hc, hs, h1, h3]
    · refine ⟨s'.respondZero .notConstructed, ?_, ?_⟩
      · simp only [exec, execAdvance, hc, hs, hph, raiseError]
        split
        · simp_all
        · rfl
      · simp [hn, hc, hs, hph]
  | setstep a b =>
    rcases execSetstep_cases (a := a) (b := b) h with ⟨h1, h2, rfl⟩ | ⟨hh, rfl⟩
    · exact ⟨_, by simp only [exec, execSetstep, hc, hf, h1, h2]; rfl, by simp [hn, hc, h1, hph]⟩
    · exact ⟨_, by simp only [exec, execSetstep, hc, hh]; rfl, by simp [hn, hc, hh, hph, hs]⟩
  | construct a b =>
    obtain ⟨h1, h2, rfl⟩ := execConstruct_cases (a := a) (b := b) h
    exact ⟨_, by simp only [exec, execConstruct, hf, h1, h2]; rfl, by simp [hn]⟩
  | reserved a b =>
    obtain rfl := execReserved_cases (a := a) (b := b) h
    exact ⟨_, rfl, by simp [hn, hc, hs, hph]⟩

/-- A step is one edge with the host's next drive. -/
theorem step_eq (s : State) : step s = clockEdge s.nextDrive s.dropDrive := rfl

end Sys2Proof.Machine
end

