-- ==== Sys2Proof/Laws/PerInstr.lean ====
section
/-! SUPPORT. Facts about every command as syntax, one lemma per constructor (LAWS.json). -/

/-! ### FieldsDecode: the opcode and the two fields of a command name the command (30_encoding.md R61) -/

/-- Decoding a command's own fields gives the command. -/
def Sys2Proof.Laws.FieldsDecode.Statement (i : Sys2Proof.Instr) : Prop :=
  Sys2Proof.decodeFields { op := i.opcode, a := i.fieldA, b := i.fieldB } = i

theorem Sys2Proof.Laws.FieldsDecode.advance (a b : Sys2Proof.Word) :
    Sys2Proof.Laws.FieldsDecode.Statement (.advance a b) := rfl

theorem Sys2Proof.Laws.FieldsDecode.setstep (a b : Sys2Proof.Word) :
    Sys2Proof.Laws.FieldsDecode.Statement (.setstep a b) := rfl

theorem Sys2Proof.Laws.FieldsDecode.construct (a b : Sys2Proof.Word) :
    Sys2Proof.Laws.FieldsDecode.Statement (.construct a b) := rfl

theorem Sys2Proof.Laws.FieldsDecode.reserved (a b : Sys2Proof.Word) :
    Sys2Proof.Laws.FieldsDecode.Statement (.reserved a b) := rfl
end

