-- ==== Sys2Proof/Laws/Rounding.lean ====
section
/-! SUPPORT. Rounding to nearest, ties to even, as arithmetic of natural numbers: what the encodings of magnitudes are, and
that `roundMag` answers the nearest of them (41_datapath.md R110, R111). -/

namespace Sys2Proof.Machine

/-- The magnitude that the lower FLEN−1 bits `low` encode, with `p` fraction bits. -/
def magOfLow (p low : Nat) : Nat :=
  if low / 2 ^ p = 0 then low % 2 ^ p else (2 ^ p + low % 2 ^ p) * 2 ^ (low / 2 ^ p - 1)

/-- The lower FLEN−1 bits of a datum. -/
def lowBits (f : Fmt) (w : Word) : Nat := w.toNat % 2 ^ (f.flen - 1)

theorem lowBits_lt (f : Fmt) (w : Word) : lowBits f w < 2 ^ (f.flen - 1) := Nat.mod_lt _ (Nat.two_pow_pos _)

theorem expField_eq (f : Fmt) (w : Word) : expField f w = lowBits f w / 2 ^ f.fracBits := by
  cases f <;> simp only [expField, lowBits, Fmt.fracBits, Fmt.expBits, Fmt.flen] <;> omega

theorem fracField_eq (f : Fmt) (w : Word) : fracField f w = lowBits f w % 2 ^ f.fracBits := by
  cases f <;> simp only [fracField, lowBits, Fmt.fracBits, Fmt.flen] <;> omega

theorem mag_eq (f : Fmt) (w : Word) : mag f w = magOfLow f.fracBits (lowBits f w) := by
  rw [mag, magOfLow, expField_eq, fracField_eq]

theorem mag_withSign (f : Fmt) (neg : Bool) (low : Nat) (h : low < 2 ^ (f.flen - 1)) :
    mag f (withSign f neg low) = magOfLow f.fracBits low := by
  rw [mag, magOfLow, expField_withSign f neg low h, fracField_withSign f neg low h]

theorem isFinite_iff (f : Fmt) (w : Word) : isFinite f w = true ↔ lowBits f w < infLow f := by
  have h := lowBits_lt f w
  rw [isFinite, expField_eq]
  cases f <;> simp only [expMax, infLow, Fmt.fracBits, Fmt.expBits, Fmt.flen, bne_iff_ne, ne_eq] at * <;> omega

/-- Quotient `t` and significand `q` encode q·2^t, also where q has carried out to 2^(p+1). -/
theorem magOfLow_encode (p t q : Nat) (hq : q ≤ 2 ^ (p + 1)) (hn : t = 0 ∨ 2 ^ p ≤ q) :
    magOfLow p (t * 2 ^ p + q) = q * 2 ^ t := by
  have hp : 0 < 2 ^ p := Nat.two_pow_pos p
  have h2 : 2 ^ (p + 1) = 2 * 2 ^ p := by rw [pow_succ]; ring
  rw [magOfLow, Nat.add_comm, Nat.add_mul_div_right _ _ hp, Nat.add_mul_mod_self_right]
  rcases Nat.lt_or_ge q (2 ^ p) with hlt | hge
  · rcases hn with rfl | hn
    · simp [Nat.div_eq_of_lt hlt, Nat.mod_eq_of_lt hlt]
    · omega
  · rcases Nat.lt_or_ge q (2 * 2 ^ p) with hlt2 | hge2
    · have hd : q / 2 ^ p = 1 := by
        apply Nat.div_eq_of_lt_le <;> omega
      have hm : q % 2 ^ p = q - 2 ^ p := by
        rw [Nat.mod_eq_sub_mod hge, Nat.mod_eq_of_lt (by omega)]
      rw [hd, hm, if_neg (by omega), show 1 + t - 1 = t by omega, show 2 ^ p + (q - 2 ^ p) = q by omega]
    · have hq2 : q = 2 * 2 ^ p := by omega
      have hd : q / 2 ^ p = 2 := by rw [hq2]; exact Nat.mul_div_cancel _ hp
      have hm : q % 2 ^ p = 0 := by rw [hq2]; exact Nat.mul_mod_left _ _
      rw [hd, hm, if_neg (by omega), show 2 + t - 1 = t + 1 by omega, hq2, pow_succ]
      ring

/-- Consecutive encodings have increasing magnitudes. -/
theorem magOfLow_lt_succ (p low : Nat) : magOfLow p low < magOfLow p (low + 1) := by
  have hp : 0 < 2 ^ p := Nat.two_pow_pos p
  have hm := Nat.mod_lt low hp
  have hdm := Nat.div_add_mod low (2 ^ p)
  have h2 : 2 ^ (p + 1) = 2 * 2 ^ p := by rw [pow_succ]; ring
  -- write low as t·2^p + q with q below the carry
  rcases Nat.eq_zero_or_pos (low / 2 ^ p) with h0 | h1
  · have e : low = 0 * 2 ^ p + low := by omega
    have hl : low < 2 ^ p := by rw [h0] at hdm; omega
    have a := magOfLow_encode p 0 low (by omega) (.inl rfl)
    have b := magOfLow_encode p 0 (low + 1) (by omega) (.inl rfl)
    simp only [Nat.zero_mul, Nat.zero_add, pow_zero, Nat.mul_one] at a b
    omega
  · obtain ⟨t, ht⟩ : ∃ t, low / 2 ^ p = t + 1 := ⟨low / 2 ^ p - 1, by omega⟩
    have e : low = t * 2 ^ p + (2 ^ p + low % 2 ^ p) := by
      rw [ht] at hdm
      have : 2 ^ p * (t + 1) = t * 2 ^ p + 2 ^ p := by ring
      omega
    have a := magOfLow_encode p t (2 ^ p + low % 2 ^ p) (by omega) (.inr (by omega))
    have b := magOfLow_encode p t (2 ^ p + low % 2 ^ p + 1) (by omega) (.inr (by omega))
    rw [← e] at a
    rw [← Nat.add_assoc, ← e] at b
    rw [a, b]
    exact Nat.mul_lt_mul_of_pos_right (by omega) (Nat.two_pow_pos t)

theorem magOfLow_strictMono (p : Nat) : StrictMono (magOfLow p) :=
  strictMono_nat_of_lt_succ (magOfLow_lt_succ p)

/-! ### rounding a quotient to an integer -/

/-- The rounded quotient is within half of the denominator. -/
theorem divNearestEven_near (num den : Nat) (hd : 0 < den) :
    2 * num ≤ 2 * (divNearestEven num den * den) + den ∧
      2 * (divNearestEven num den * den) ≤ 2 * num + den := by
  have hm := Nat.mod_lt num hd
  have hdm := Nat.div_add_mod num den
  have hc : den * (num / den) = num / den * den := Nat.mul_comm _ _
  unfold divNearestEven
  split
  · rw [Nat.add_mul]; omega
  · omega

/-- At an exact half the rounded quotient is even. -/
theorem divNearestEven_tie (num den : Nat) (hd : 0 < den)
    (h : 2 * num = 2 * (divNearestEven num den * den) + den ∨
      2 * (divNearestEven num den * den) = 2 * num + den) :
    divNearestEven num den % 2 = 0 := by
  have hm := Nat.mod_lt num hd
  have hdm := Nat.div_add_mod num den
  have hc : den * (num / den) = num / den * den := Nat.mul_comm _ _
  unfold divNearestEven at *
  split at h
  · next hs => rw [if_pos hs]; rw [Nat.add_mul] at h; omega
  · next hs => rw [if_neg hs]; omega

theorem divNearestEven_exact (q den : Nat) (hd : 0 < den) : divNearestEven (q * den) den = q := by
  have h1 : q * den / den = q := Nat.mul_div_cancel q hd
  have h2 : q * den % den = 0 := Nat.mul_mod_left q den
  unfold divNearestEven
  rw [h1, h2, if_neg (by omega)]

/-- Dividing down leaves the rounded quotient between the bounds of the quotient. -/
theorem divNearestEven_bounds (num den : Nat) :
    num / den ≤ divNearestEven num den ∧ divNearestEven num den ≤ num / den + 1 := by
  unfold divNearestEven
  split <;> omega

/-- The significand `roundMag` rounds to: at most 2^(p+1), and at least 2^p unless nothing is dropped. -/
theorem significand_bounds (f : Fmt) (num den : Nat) :
    divNearestEven num (den * 2 ^ dropBits f num den) ≤ 2 ^ (f.fracBits + 1) ∧
      (dropBits f num den = 0 ∨ 2 ^ f.fracBits ≤ divNearestEven num (den * 2 ^ dropBits f num den)) := by
  have hb := divNearestEven_bounds num (den * 2 ^ dropBits f num den)
  rw [← Nat.div_div_eq_div_mul] at hb
  generalize hq : num / den = q at hb
  have hdrop : dropBits f num den = Nat.log2 q - f.fracBits := by rw [dropBits, hq]
  rw [hdrop] at hb ⊢
  have hlog : q < 2 ^ (Nat.log2 q + 1) := Nat.lt_log2_self
  constructor
  · have : q / 2 ^ (Nat.log2 q - f.fracBits) < 2 ^ (f.fracBits + 1) := by
      rw [Nat.div_lt_iff_lt_mul (Nat.two_pow_pos _), ← pow_add]
      exact Nat.lt_of_lt_of_le hlog (Nat.pow_le_pow_right (by omega) (by omega))
    omega
  · rcases Nat.eq_zero_or_pos (Nat.log2 q - f.fracBits) with h0 | h1
    · exact .inl h0
    · right
      have hq0 : q ≠ 0 := by rintro rfl; simp at h1
      have : 2 ^ f.fracBits ≤ q / 2 ^ (Nat.log2 q - f.fracBits) := by
        rw [Nat.le_div_iff_mul_le (Nat.two_pow_pos _), ← pow_add, show f.fracBits + (Nat.log2 q - f.fracBits) = Nat.log2 q by omega]
        exact Nat.log2_self_le hq0
      omega

/-- The magnitude of the unclamped rounding is significand times scale. -/
theorem magOfLow_round (f : Fmt) (num den : Nat) :
    magOfLow f.fracBits
        (dropBits f num den * 2 ^ f.fracBits + divNearestEven num (den * 2 ^ dropBits f num den)) =
      divNearestEven num (den * 2 ^ dropBits f num den) * 2 ^ dropBits f num den :=
  magOfLow_encode _ _ _ (significand_bounds f num den).1 (significand_bounds f num den).2

/-- A magnitude of the format rounds to itself. -/
theorem roundMag_exact (f : Fmt) (low den : Nat) (hd : 0 < den) (hl : low ≤ infLow f) :
    roundMag f (magOfLow f.fracBits low * den) den = low := by
  have hp : 0 < 2 ^ f.fracBits := Nat.two_pow_pos _
  have hq : magOfLow f.fracBits low * den / den = magOfLow f.fracBits low := Nat.mul_div_cancel _ hd
  have key : ∃ t q, low = t * 2 ^ f.fracBits + q ∧ q < 2 ^ (f.fracBits + 1) ∧ (t = 0 ∨ 2 ^ f.fracBits ≤ q) := by
    have hdm := Nat.div_add_mod low (2 ^ f.fracBits)
    have hm := Nat.mod_lt low hp
    have h2 : 2 ^ (f.fracBits + 1) = 2 * 2 ^ f.fracBits := by rw [pow_succ]; ring
    rcases Nat.eq_zero_or_pos (low / 2 ^ f.fracBits) with h0 | h1
    · refine ⟨0, low, by omega, ?_, .inl rfl⟩
      rw [h0] at hdm; omega
    · obtain ⟨t, ht⟩ : ∃ t, low / 2 ^ f.fracBits = t + 1 := ⟨low / 2 ^ f.fracBits - 1, by omega⟩
      refine ⟨t, 2 ^ f.fracBits + low % 2 ^ f.fracBits, ?_, by omega, .inr (by omega)⟩
      rw [ht] at hdm
      have : 2 ^ f.fracBits * (t + 1) = t * 2 ^ f.fracBits + 2 ^ f.fracBits := by ring
      omega
  obtain ⟨t, q, rfl, hlt, hn⟩ := key
  have hmag := magOfLow_encode f.fracBits t q hlt.le hn
  have hdrop : dropBits f (magOfLow f.fracBits (t * 2 ^ f.fracBits + q) * den) den = t := by
    rw [dropBits, hq, hmag]
    rcases hn with rfl | hn
    · rw [pow_zero, Nat.mul_one]
      rcases Nat.eq_zero_or_pos q with rfl | hq0
      · simp
      · have := (Nat.log2_lt (by omega)).2 hlt
        omega
    · have hq0 : q ≠ 0 := by omega
      have hlog : Nat.log2 (q * 2 ^ t) = f.fracBits + t := by
        have hne : q * 2 ^ t ≠ 0 := Nat.mul_ne_zero hq0 (Nat.two_pow_pos t).ne'
        apply Nat.le_antisymm
        · have : Nat.log2 (q * 2 ^ t) < f.fracBits + t + 1 := by
            rw [Nat.log2_lt hne, show f.fracBits + t + 1 = (f.fracBits + 1) + t by omega, pow_add 2 (f.fracBits + 1) t]
            exact Nat.mul_lt_mul_of_pos_right hlt (Nat.two_pow_pos t)
          omega
        · rw [Nat.le_log2 hne, pow_add]
          exact Nat.mul_le_mul_right _ hn
      rw [hlog]; omega
  rw [roundMag, hdrop, hmag]
  have : q * 2 ^ t * den = q * (den * 2 ^ t) := by ring
  rw [this, divNearestEven_exact _ _ (Nat.mul_pos hd (Nat.two_pow_pos t))]
  exact Nat.min_eq_left hl

/-- Below the overflow clamp, `roundMag` is the unclamped rounding. -/
theorem roundMag_of_lt (f : Fmt) (num den : Nat) (h : roundMag f num den < infLow f) :
    roundMag f num den =
      dropBits f num den * 2 ^ f.fracBits + divNearestEven num (den * 2 ^ dropBits f num den) := by
  unfold roundMag at *
  omega

/-- Every encoding above the unclamped rounding is at least one significand unit larger. -/
theorem magOfLow_above (p t q low : Nat) (hq : q ≤ 2 ^ (p + 1)) (hn : t = 0 ∨ 2 ^ p ≤ q)
    (h : t * 2 ^ p + q < low) : (q + 1) * 2 ^ t ≤ magOfLow p low := by
  refine Nat.le_trans ?_ ((magOfLow_strictMono p).monotone h)
  rw [Nat.succ_eq_add_one]
  rcases Nat.lt_or_ge q (2 ^ (p + 1)) with hlt | hge
  · rw [Nat.add_assoc, magOfLow_encode p t (q + 1) hlt (by omega)]
  · have hp : 0 < 2 ^ p := Nat.two_pow_pos p
    have h2 : 2 ^ (p + 1) = 2 * 2 ^ p := by rw [pow_succ]; ring
    have e : t * 2 ^ p + q + 1 = (t + 1) * 2 ^ p + (2 ^ p + 1) := by
      have : (t + 1) * 2 ^ p = t * 2 ^ p + 2 ^ p := by ring
      omega
    rw [e, magOfLow_encode p (t + 1) (2 ^ p + 1) (by omega) (.inr (by omega)), pow_succ]
    have : q = 2 * 2 ^ p := by omega
    rw [this]
    nlinarith [Nat.two_pow_pos t]

/-- Every encoding below it is at least one significand unit smaller, except across a binade boundary,
where it is only smaller. -/
theorem magOfLow_below (p t q low : Nat) (hq : q ≤ 2 ^ (p + 1)) (hn : t = 0 ∨ 2 ^ p ≤ q)
    (h : low < t * 2 ^ p + q) :
    (magOfLow p low + 2 ^ t ≤ q * 2 ^ t) ∨ (0 < t ∧ q = 2 ^ p ∧ magOfLow p low < q * 2 ^ t) := by
  have hmono := (magOfLow_strictMono p) h
  rw [magOfLow_encode p t q hq hn] at hmono
  by_cases hb : 0 < t ∧ q = 2 ^ p
  · exact .inr ⟨hb.1, hb.2, hmono⟩
  · left
    have hq0 : 0 < q := by
      rcases hn with rfl | hn
      · omega
      · exact Nat.lt_of_lt_of_le (Nat.two_pow_pos p) hn
    have hle : low ≤ t * 2 ^ p + (q - 1) := by omega
    have hm := (magOfLow_strictMono p).monotone hle
    rw [magOfLow_encode p t (q - 1) (by omega) (by omega)] at hm
    have : q * 2 ^ t = (q - 1) * 2 ^ t + 2 ^ t := by
      obtain ⟨r, rfl⟩ : ∃ r, q = r + 1 := ⟨q - 1, by omega⟩
      rw [Nat.add_sub_cancel]; ring
    omega

/-- R110, R111: no magnitude of the format is nearer to num/den than the one `roundMag` encodes, and where
another is equally near the encoding ends in a 0 bit. -/
theorem roundMag_nearest (f : Fmt) (num den low : Nat) (hd : 0 < den) (h : roundMag f num den < infLow f) :
    |(num : ℤ) - magOfLow f.fracBits (roundMag f num den) * den| ≤
        |(num : ℤ) - magOfLow f.fracBits low * den| ∧
      (low ≠ roundMag f num den →
        |(num : ℤ) - magOfLow f.fracBits low * den| =
          |(num : ℤ) - magOfLow f.fracBits (roundMag f num den) * den| →
        roundMag f num den % 2 = 0) := by
  rw [roundMag_of_lt f num den h, magOfLow_round f num den]
  obtain ⟨hq, hn⟩ := significand_bounds f num den
  have hD : 0 < den * 2 ^ dropBits f num den := Nat.mul_pos hd (Nat.two_pow_pos _)
  have hfl := (divNearestEven_bounds num (den * 2 ^ dropBits f num den)).1
  have hnear := divNearestEven_near num (den * 2 ^ dropBits f num den) hD
  have htie := divNearestEven_tie num (den * 2 ^ dropBits f num den) hD
  have hfloor : dropBits f num den = 0 ∨ 2 ^ f.fracBits ≤ num / (den * 2 ^ dropBits f num den) := by
    rcases Nat.eq_zero_or_pos (dropBits f num den) with h0 | h1
    · exact .inl h0
    · right
      have hq0 : num / den ≠ 0 := by
        intro h0; rw [dropBits, h0] at h1; simp at h1
      have hlog : dropBits f num den = Nat.log2 (num / den) - f.fracBits := rfl
      rw [← Nat.div_div_eq_div_mul, Nat.le_div_iff_mul_le (Nat.two_pow_pos _), ← pow_add,
        show f.fracBits + dropBits f num den = Nat.log2 (num / den) by omega]
      exact Nat.log2_self_le hq0
  have hmulfl := Nat.div_mul_le_self num (den * 2 ^ dropBits f num den)
  have hp2 : 2 ∣ 2 ^ f.fracBits := by cases f <;> decide
  generalize ht : dropBits f num den = t at *
  generalize hqq : divNearestEven num (den * 2 ^ t) = q at *
  have hpar : (t * 2 ^ f.fracBits + q) % 2 = q % 2 := by
    obtain ⟨c, hc⟩ := hp2
    rw [hc, show t * (2 * c) + q = q + 2 * (t * c) by ring, Nat.add_mul_mod_self_left]
  rw [hpar]
  -- everything below is in multiples of den
  have hqD : q * (den * 2 ^ t) = q * 2 ^ t * den := by ring
  rw [hqD] at hnear htie
  rw [← Nat.cast_mul, ← Nat.cast_mul]
  rw [Nat.mul_comm den (2 ^ t)] at hnear htie
  have habs : ∀ L Q : ℕ, ((2 * num ≤ 2 * Q + 2 ^ t * den ∧ 2 * Q ≤ 2 * num + 2 ^ t * den) ∧
      (L + 2 ^ t * den ≤ Q ∨ Q + 2 ^ t * den ≤ L ∨ (L < Q ∧ Q ≤ num) ∨ L = Q)) →
      |(num : ℤ) - Q| ≤ |(num : ℤ) - L| ∧ (L ≠ Q → |(num : ℤ) - L| = |(num : ℤ) - Q| →
        2 * num = 2 * Q + 2 ^ t * den ∨ 2 * Q = 2 * num + 2 ^ t * den) := by
    intro L Q hLQ
    have hpos : 0 < 2 ^ t * den := Nat.mul_pos (Nat.two_pow_pos t) hd
    generalize 2 ^ t * den = D at *
    rcases abs_cases ((num : ℤ) - Q) with ⟨h1, _⟩ | ⟨h1, _⟩ <;>
      rcases abs_cases ((num : ℤ) - L) with ⟨h2, _⟩ | ⟨h2, _⟩ <;> rw [h1, h2] <;> omega
  rcases Nat.lt_trichotomy low (t * 2 ^ f.fracBits + q) with hl | rfl | hl
  · rcases magOfLow_below f.fracBits t q low hq hn hl with hb | ⟨h0, hqp, hb⟩
    · have hb' := Nat.mul_le_mul_right den hb
      rw [Nat.add_mul] at hb'
      have := habs _ _ ⟨hnear, .inl hb'⟩
      exact ⟨this.1, fun hne he => htie (this.2 (by have := Nat.mul_pos (Nat.two_pow_pos t) hd; omega) he)⟩
    · have hb' := Nat.mul_lt_mul_of_pos_right hb hd
      have hQ : q * 2 ^ t * den ≤ num := by
        rw [← hqD]
        refine Nat.le_trans (Nat.mul_le_mul_right _ ?_) hmulfl
        omega
      have := habs _ _ ⟨hnear, .inr (.inr (.inl ⟨hb', hQ⟩))⟩
      exact ⟨this.1, fun hne he => htie (this.2 (by omega) he)⟩
  · rw [magOfLow_encode f.fracBits t q hq hn]
    exact ⟨le_refl _, fun hne => absurd rfl hne⟩
  · have hb := Nat.mul_le_mul_right den (magOfLow_above f.fracBits t q low hq hn hl)
    rw [Nat.add_mul, Nat.add_mul, Nat.one_mul] at hb
    have := habs _ _ ⟨hnear, .inr (.inl hb)⟩
    exact ⟨this.1, fun hne he => htie (this.2 (by have := Nat.mul_pos (Nat.two_pow_pos t) hd; omega) he)⟩

end Sys2Proof.Machine
end

