-- ==== Sys2Proof/Laws/SinCos.lean ====
section
/-! SUPPORT. How the named property SC_Accurate(k) of SinCos (41_datapath.md R115) depends on its bound k. -/

namespace Sys2Proof.Machine

/-- A larger bound is a weaker one. -/
theorem withinUlps_mono {f : Fmt} {k l : ℝ} {w : Word} {r : ℝ} (hkl : k ≤ l) (h : withinUlps f k w r) :
    withinUlps f l w r :=
  ⟨h.1, fun e he => (h.2 e he).trans (by gcongr)⟩

/-- A larger bound is a weaker one. -/
theorem SC_Accurate_mono {f : Fmt} {k l : ℝ} (hkl : k ≤ l) (h : SC_Accurate f k) : SC_Accurate f l :=
  fun x hx hf => ⟨withinUlps_mono hkl (h x hx hf).1, withinUlps_mono hkl (h x hx hf).2⟩

/-- No datum is within a negative number of units of 0, so a negative bound is met by no evaluator (log 16). -/
theorem withinUlps_zero_nonneg {f : Fmt} {k : ℝ} {w : Word} (h : withinUlps f k w 0) : 0 ≤ k := by
  have hb := (abs_nonneg _).trans (h.2 (-(unitExp f : ℤ)) (.inl ⟨by rw [abs_zero]; positivity, rfl⟩))
  exact nonneg_of_mul_nonneg_left hb (by positivity)

end Sys2Proof.Machine
end

