-- ==== Sys2Proof/Tests/Slice0.lean ====
section
/-! SUPPORT. Tests with expected results from the spec's tables and vectors (30_encoding.md R70, 95_test_vectors.md), and for
every obligation with hypotheses a concrete witness that meets them. -/

namespace Sys2Proof.Machine.Tests

/-! ### helpers -/

/-- An instance with four different parameters. -/
def params (f : Fmt) : Params :=
  { fmt := f, latConstruct := 3, latSetstep := 2, latAdvance := 1, rspDepth := 2 }

/-- A constructed engine out of reset with the given STEP and PHASE, nothing in flight or queued. -/
def live (f : Fmt) (w p : Pair) : State :=
  { State.resetOf (params f) with prevRst := false, constructed := true, stepVec := some w, phaseVec := some p }

/-- STEP = (+0, 1.0), PHASE = (+0, 1.0), as after `CONSTRUCT 0.0, 0.0` (CV-03). -/
def live64 : State := live .binary64 ⟨0, 0x3FF0000000000000⟩ ⟨0, 0x3FF0000000000000⟩

/-- The same in binary32. -/
def live32 : State := live .binary32 ⟨0, 0x3F800000⟩ ⟨0, 0x3F800000⟩

/-- Out of reset, not constructed. -/
def fresh64 : State := { State.resetOf (params .binary64) with prevRst := false }

def rsp0 : Response := ⟨.ok, 0, 0x3FF0000000000000⟩
def rsp1 : Response := ⟨.notConstructed, 0, 0⟩

/-- The next state of an outcome, or the state itself. -/
def nextOr (s : State) (o : Host.Outcome State Fault Refusal) : State :=
  match o with
  | .next t => t
  | .fault _ => s
  | .refused _ => s

/-- The outcome is the one fault. -/
def faulted (o : Host.Outcome State Fault Refusal) : Bool :=
  match o with
  | .next _ => false
  | .fault .undefinedOperand => true
  | .refused _ => false

/-- A drive that offers a command and takes a response. -/
def offer (op : BitVec 2) (a b : Word) : Drive :=
  { meetsTiming := true, rst := false, cmdValid := true, cmd := ⟨op, a, b⟩, rspReady := true }

/-- A drive with `rst` = 1 that also offers a command and takes a response. -/
def resetDrive : Drive := { offer 0b10#2 0 0 with rst := true }

/-! ### encoding (R60, R61, R70) -/

-- bits 65..34 of the binary32 word: b = 0x3FC90FDB; bits 33..2: a = 0; bits 1..0: 0b10
theorem test_decode_construct32 :
    decode .binary32 (0x3FC90FDB * 2 ^ 34 + 0x00000000 * 2 ^ 2 + 0b10) = .ok (.construct 0 0x3FC90FDB) := by
  decide

-- P4's second CONSTRUCT: b = 0 in [129:66], a = 0x3FF921FB54442D18 in [65:2]
theorem test_decode_construct64 :
    decode .binary64 0x00000000000000000FFE487ED5110B462 = .ok (.construct 0x3FF921FB54442D18 0) := by decide

-- P3's SETSTEP with a NaN
theorem test_decode_setstep64 :
    decode .binary64 0x00000000000000001FFE0000000000001 = .ok (.setstep 0x7FF8000000000000 0) := by decide

theorem test_decode_advance32 :
    decode .binary32 (0xFFFFFFFF * 2 ^ 34 + 0x00000001 * 2 ^ 2 + 0b00) = .ok (.advance 1 0xFFFFFFFF) := by decide

theorem test_decode_reserved64 :
    decode .binary64 (1 * 2 ^ 66 + 2 * 2 ^ 2 + 0b11) = .ok (.reserved 2 1) := by decide

theorem test_decode_too_wide : decode .binary32 (2 ^ 66) = .error .notAPackedWord := by decide

theorem test_decodeTableWord : decodeTableWord 8 0 = some (.advance 0 0) ∧ decodeTableWord 8 1 = some (.setstep 0 0) ∧
    decodeTableWord 8 2 = some (.construct 0 0) ∧ decodeTableWord 8 3 = some (.reserved 0 0) := by decide

-- R70 and P1: the packed word of CONSTRUCT 0.0, π/2
theorem test_encode_construct64 :
    (encode .binary64 (.construct 0 0x3FF921FB54442D18)).toNat = 0x0FFE487ED5110B4600000000000000002 := by decide

-- R62: code [1:0], sin [33:2], cos [65:34]
theorem test_encode_response32 :
    (encodeResponse .binary32 ⟨.notConstructed, 1, 2⟩).toNat = 2 * 2 ^ 34 + 1 * 2 ^ 2 + 0b10 := by decide

-- U11: code 0b11 is refused
theorem test_decode_response_code3 : decodeResponse .binary64 3 = .error .reservedResponseCode := by decide

/-! ### WellFormed: an ill-formed term for each check -/

theorem test_wellFormed_refuses_wide_a : Instr.wellFormed .binary32 (.construct 0x100000000 0) = false := by decide
theorem test_wellFormed_refuses_wide_b : Instr.wellFormed .binary32 (.construct 0 0x100000000) = false := by decide
theorem test_wellFormed_refuses_wide_ignored :
    Instr.wellFormed .binary32 (.advance 0x100000000 0) = false ∧
    Instr.wellFormed .binary32 (.setstep 0 0x100000000) = false ∧
    Instr.wellFormed .binary32 (.reserved 0 0x100000000) = false := by decide
theorem test_fits_refuses_wide_response : Response.fits .binary32 ⟨.ok, 0, 0x100000000⟩ = false := by decide

/-! ### assembler (R68, R70) -/

theorem test_assemble_setstep : assembleLine .binary64 "SETSTEP 1.0 ; one radian" =
    .ok (.command (.setstep 0x3FF0000000000000 0)) := by decide +kernel

theorem test_assemble_stream : assembleStream .binary32 [".fmt binary32", "CONSTRUCT 0.0, 0x3FC90FDB", "", "CMD 0b11, 0x0, 0x1"] =
    .ok [.construct 0 0x3FC90FDB, .reserved 0 1] := by decide +kernel

-- FLEN/4 = 8 hexadecimal digits at most in binary32
theorem test_assemble_refuses_nine_digits : assembleLine .binary32 "SETSTEP 0x123456789" = .error .badOperand := by
  decide +kernel

/-! ### the datapath (95_test_vectors.md section 4.5) -/

-- DP-01, DP-03, DP-04, DP-06, DP-08, DP-09, DP-10
theorem test_rotate64 :
    rotate .binary64 0 ⟨0x8000000000000000, 0x3FF0000000000000⟩ ⟨0, 0x3FF0000000000000⟩ =
      ⟨0, 0x3FF0000000000000⟩ ∧
    rotate .binary64 0 ⟨0x8000000000000000, 0xBFF0000000000000⟩ ⟨0, 0x3FF0000000000000⟩ =
      ⟨0x8000000000000000, 0xBFF0000000000000⟩ ∧
    rotate .binary64 0 ⟨0xBFF0000000000000, 0x8000000000000000⟩ ⟨0, 0x3FF0000000000000⟩ =
      ⟨0xBFF0000000000000, 0⟩ ∧
    rotate .binary64 0 ⟨0x7FE1CCF385EBC8A0, 0x7FE1CCF385EBC8A0⟩ ⟨0x3FF0000000000000, 0x3FF0000000000000⟩ =
      ⟨0x7FF0000000000000, 0⟩ ∧
    rotate .binary64 0 ⟨3, 0⟩ ⟨0x3FE0000000000000, 0x3FE0000000000000⟩ = ⟨2, 0x8000000000000002⟩ ∧
    rotate .binary64 0 ⟨0x3FF0000001000000, 0x3FF0000000400000⟩ ⟨0x3FF0000001000000, 0x3FF0000000400000⟩ =
      ⟨0x4000000001400000, 0xBE38000000000000⟩ ∧
    rotate .binary64 0 ⟨0x3FD2E9CD95BABA33, 0x3FEE921DD42F09BA⟩ ⟨0x3FB98EAECB8BCB2C, 0x3FEFD712F9A817C1⟩ =
      ⟨0x3FD8EC3AE92B676A, 0x3FED7954E7DBA2F8⟩ := by decide +kernel

-- DP-12 to DP-16
theorem test_rotate32 :
    rotate .binary32 0 ⟨0x80000000, 0x3F800000⟩ ⟨0, 0x3F800000⟩ = ⟨0, 0x3F800000⟩ ∧
    rotate .binary32 0 ⟨0x7F61B1E6, 0x7F61B1E6⟩ ⟨0x3F800000, 0x3F800000⟩ = ⟨0x7F800000, 0⟩ ∧
    rotate .binary32 0 ⟨3, 0⟩ ⟨0x3F000000, 0x3F000000⟩ = ⟨2, 0x80000002⟩ ∧
    rotate .binary32 0 ⟨0x3F802000, 0x3F800800⟩ ⟨0x3F802000, 0x3F800800⟩ = ⟨0x40002802, 0xBAC02000⟩ ∧
    rotate .binary32 0 ⟨0x3E974E6D, 0x3F7490EF⟩ ⟨0x3DCC7577, 0x3F7EB898⟩ = ⟨0x3EC761D8, 0x3F6BCAA8⟩ := by
  decide +kernel

-- R111's examples: (+0)+(−0), (−0)−(−0), 1.0−1.0, (−0)−(+0)
theorem test_signed_zero_sums :
    fadd .binary64 0 0 0x8000000000000000 = 0 ∧ fsub .binary64 0 0x8000000000000000 0x8000000000000000 = 0 ∧
    fsub .binary64 0 0x3FF0000000000000 0x3FF0000000000000 = 0 ∧
    fsub .binary64 0 0x8000000000000000 0 = 0x8000000000000000 := by decide +kernel

/-! ### commands -/

-- AV-64, k = 3 to 4: the third ADVANCE responds its PHASE and rotates on
theorem test_advance_responds_then_rotates :
    (nextOr live64 (exec (.advance 0 0) (live .binary64 ⟨0x3FF0000000000000, 0x3C91A62633145C07⟩
      ⟨0x3CA1A62633145C07, 0xBFF0000000000000⟩))).phaseVec = some ⟨0xBFF0000000000000, 0xBCAA79394C9E8A0A⟩ ∧
    (nextOr live64 (exec (.advance 0 0) (live .binary64 ⟨0x3FF0000000000000, 0x3C91A62633145C07⟩
      ⟨0x3CA1A62633145C07, 0xBFF0000000000000⟩))).rsps = [⟨.ok, 0x3CA1A62633145C07, 0xBFF0000000000000⟩] := by
  decide +kernel

-- EV-01
theorem test_advance_before_construct : (nextOr live64 (exec (.advance 0 0) State.reset)).rsps = [rsp1] := by decide

-- SV-03: the NaN is not examined before construction; SV-04: −∞ is undefined after it
theorem test_setstep_order_of_checks :
    (nextOr live64 (exec (.setstep 0x7FF8000000000000 0) State.reset)).rsps = [rsp1] ∧
    faulted (exec (.setstep 0xFFF0000000000000 0) live64) = true := by decide

-- SV-05: a NaN in the ignored field b is harmless
theorem test_setstep_ignores_b : (nextOr live64 (exec (.setstep 0 0x7FC00000) live32)).rsps = [⟨.ok, 0, 0⟩] := by
  decide

-- CV-05, CV-06
theorem test_construct_undefined : faulted (exec (.construct 0x7FF8000000000000 0) State.reset) = true ∧
    faulted (exec (.construct 0 0x7F800000) live32) = true := by decide

-- CV-03
theorem test_construct_sets_flag :
    (nextOr live64 (exec (.construct 0 0) State.reset)).constructed = true ∧
    (nextOr live64 (exec (.construct 0 0) State.reset)).rsps = [⟨.ok, 0, 0⟩] := by decide

-- EV-02, EV-03
theorem test_reserved : exec (.reserved 0x7FF8000000000000 0) live64 =
    .next { live64 with rsps := [⟨.illegalCmd, 0, 0⟩] } := rfl

/-! ### edges -/

-- the four rows, each as the first command after reset
theorem test_fetch_runs :
    (nextOr live64 (step (State.reset.withFetchWord 8 0))).rsps = [rsp1] ∧
    (nextOr live64 (step (State.reset.withFetchWord 8 1))).rsps = [rsp1] ∧
    (nextOr live64 (step (State.reset.withFetchWord 8 2))).constructed = true ∧
    (nextOr live64 (step (State.reset.withFetchWord 8 3))).rsps = [⟨.illegalCmd, 0, 0⟩] := by decide

-- RV-02, RV-03: reset loses waiting responses and takes no command or response
theorem test_reset_edge :
    nextOr live64 (step { live64 with rsps := [rsp0, rsp1], script := [resetDrive] }) =
      State.resetOf (params .binary64) := by decide

-- R170: LAT_CONSTRUCT of this instance is 3
theorem test_transfer_starts_the_flight :
    (nextOr live64 (step { fresh64 with script := [offer 0b10#2 0 0] })).inFlight = some ⟨⟨0b10#2, 0, 0⟩, 3⟩ := by
  decide

/-! ### witnesses: the hypotheses of each obligation hold of something -/

theorem witness_DecodeEncodeRoundTrip : Instr.wellFormed .binary32 (.construct 0 0xFFFFFFFF) = true := by decide

theorem witness_EncodeDecodeRoundTrip :
    2 ^ 66 - 1 < 2 ^ Fmt.binary32.packedBits ∧ 2 ^ Fmt.binary32.packedBits ≤ 2 ^ 66 := by decide

theorem witness_ResponseRoundTrip : Response.fits .binary32 ⟨.ok, 0, 0xFFFFFFFF⟩ = true := by decide

-- the largest finite value; the next encoding is +∞
theorem witness_ConstructLoadsBothPairs :
    (Word.fits live64.fmt 0x7FEFFFFFFFFFFFFF = true ∧ Word.fits live64.fmt 0x8000000000000000 = true ∧
      isFinite live64.fmt 0x7FEFFFFFFFFFFFFF = true ∧ isFinite live64.fmt 0x8000000000000000 = true) ∧
    (isFinite live64.fmt 0x7FF0000000000000 = false ∨ isFinite live64.fmt 0 = false) := by decide

theorem witness_SetstepRewritesStepOnly :
    (live32.constructed = true ∧ Word.fits live32.fmt 0x7F7FFFFF = true ∧ isFinite live32.fmt 0x7F7FFFFF = true) ∧ fresh64.constructed = false ∧
    (live32.constructed = true ∧ isFinite live32.fmt 0x7F800000 = false) := by decide

theorem witness_AdvanceReturnsThenRotates :
    (live64.constructed = true ∧ live64.phaseVec = some ⟨0, 0x3FF0000000000000⟩ ∧
      live64.stepVec = some ⟨0, 0x3FF0000000000000⟩) ∧ fresh64.constructed = false := by decide

theorem witness_UndefinedOperandExactly :
    commandUndefined (.setstep 0x7FF0000000000000 0) live64 = true ∧
    commandUndefined (.setstep 0x7FF0000000000000 0) fresh64 = false := by decide

theorem witness_OneResponseOfTheExpectedCode :
    (live64.regsHeld = true ∧ commandUndefined (.advance 1 2) live64 = false ∧
      live64.phaseVec = some ⟨0, 0x3FF0000000000000⟩) ∧
    (fresh64.regsHeld = true ∧ commandUndefined (.construct 0 0) fresh64 = false) := by decide

theorem witness_ErrorsArePrecise : ∃ t, exec (.advance 0 0) fresh64 = .next t ∧ t.rsps = fresh64.rsps ++ [rsp1] ∧
    rsp1.code ≠ .ok := ⟨_, rfl, by decide, by decide⟩

theorem witness_CommandFrame : (∃ t, exec (.construct 0 0) fresh64 = .next t) ∧ (∃ t, exec (.setstep 0 0) live64 = .next t) ∧
    (∃ t, exec (.advance 0 0) live64 = .next t) ∧ (∃ t, exec (.reserved 0 0) fresh64 = .next t) :=
  ⟨⟨_, rfl⟩, ⟨_, rfl⟩, ⟨_, rfl⟩, ⟨_, rfl⟩⟩

theorem witness_ConstructForgetsTheOldState : live64.params = fresh64.params ∧ live64 ≠ fresh64 ∧
    isFinite fresh64.fmt 0 = true ∧ isFinite fresh64.fmt 0x3FF0000000000000 = true := by decide

theorem witness_AdvanceDependsOnRegistersOnly :
    ({ live64 with nanDraws := 6, rsps := [rsp0] } : State).fmt = live64.fmt ∧ live64.constructed = true ∧
    ({ live64 with nanDraws := 6, rsps := [rsp0] } : State).constructed = true ∧
    live64.phaseVec = some ⟨0, 0x3FF0000000000000⟩ ∧
    ({ live64 with nanDraws := 6, rsps := [rsp0] } : State).phaseVec = some ⟨0, 0x3FF0000000000000⟩ ∧
    live64.stepVec = some ⟨0, 0x3FF0000000000000⟩ ∧
    ({ live64 with nanDraws := 6, rsps := [rsp0] } : State).stepVec = some ⟨0, 0x3FF0000000000000⟩ := by decide

theorem witness_FirstSampleIsTheConstructedPhase : isFinite fresh64.fmt 0 = true ∧ isFinite fresh64.fmt 1 = true ∧
    ∀ w ∈ [((2 : Word), (0x7FF8000000000000 : Word))], isFinite fresh64.fmt w.1 = true :=
  ⟨by decide, by decide, List.forall_mem_singleton.2 (by decide)⟩

theorem witness_SetstepActsFromTheSecondSample : live32.constructed = true ∧
    live32.phaseVec = some ⟨0, 0x3F800000⟩ ∧ isFinite live32.fmt 0x3FC90FDB = true := by decide

theorem witness_AdvanceSequenceIteratesRotate : isFinite live32.fmt 0 = true ∧ isFinite live32.fmt 0x3E20D97C = true := by
  decide

-- PHASE = (−0, 1.0), where the first exception applies
theorem witness_UnitStepHoldsThePhase :
    (live .binary64 ⟨0, 0x3FF0000000000000⟩ ⟨0x8000000000000000, 0x3FF0000000000000⟩).constructed = true ∧
    (live .binary64 ⟨0, 0x3FF0000000000000⟩ ⟨0x8000000000000000, 0x3FF0000000000000⟩).stepVec =
      some ⟨posZero, one .binary64⟩ ∧
    Word.fits .binary64 0x8000000000000000 = true ∧ Word.fits .binary64 0x3FF0000000000000 = true ∧
    isFinite .binary64 0x8000000000000000 = true ∧ isFinite .binary64 0x3FF0000000000000 = true := by decide +kernel

-- 1.5 ulp: a tie between the encodings 1 and 2
theorem witness_ProductIsNearestEven :
    isFinite .binary64 3 = true ∧ isFinite .binary64 0x3FE0000000000000 = true ∧ isFinite .binary64 1 = true ∧
    isFinite .binary64 (fmul .binary64 0 3 0x3FE0000000000000) = true ∧
    units .binary64 1 ≠ units .binary64 (fmul .binary64 0 3 0x3FE0000000000000) ∧
    |units .binary64 3 * units .binary64 0x3FE0000000000000 - units .binary64 1 * 2 ^ unitExp .binary64| =
      |units .binary64 3 * units .binary64 0x3FE0000000000000 -
        units .binary64 (fmul .binary64 0 3 0x3FE0000000000000) * 2 ^ unitExp .binary64| := by decide +kernel

theorem witness_ProductOverflow :
    isFinite .binary32 0x7F7FFFFF = true ∧ isFinite .binary32 0x3F800001 = true ∧
    isInf .binary32 (fmul .binary32 0 0x7F7FFFFF 0x3F800001) = true ∧
    isInf .binary32 (fmul .binary32 0 0x7F7FFFFF 0x3F800000) = false := by decide +kernel

theorem witness_ProductSignsAndSpecials :
    isNaN .binary64 (fmul .binary64 0 0x8000000000000000 0x3FF0000000000000) = false ∧
    isInf .binary64 0x7FF0000000000000 = true ∧
    isNaN .binary64 (fmul .binary64 0 0x7FF0000000000000 1) = false := by decide +kernel

-- 2^24 + 1 lies midway between 2^24 and 2^24 + 2 in binary32
theorem witness_SumIsNearestEven :
    isFinite .binary32 0x4B800000 = true ∧ isFinite .binary32 0x3F800000 = true ∧ isFinite .binary32 0x4B800001 = true ∧
    isFinite .binary32 0xBF800000 = true ∧
    isFinite .binary32 (fadd .binary32 0 0x4B800000 0x3F800000) = true ∧
    isFinite .binary32 (fsub .binary32 0 0x4B800000 0xBF800000) = true ∧
    units .binary32 0x4B800001 ≠ units .binary32 (fadd .binary32 0 0x4B800000 0x3F800000) ∧
    |units .binary32 0x4B800000 + units .binary32 0x3F800000 - units .binary32 0x4B800001| =
      |units .binary32 0x4B800000 + units .binary32 0x3F800000 -
        units .binary32 (fadd .binary32 0 0x4B800000 0x3F800000)| ∧
    units .binary32 0x4B800001 ≠ units .binary32 (fsub .binary32 0 0x4B800000 0xBF800000) ∧
    |units .binary32 0x4B800000 - units .binary32 0xBF800000 - units .binary32 0x4B800001| =
      |units .binary32 0x4B800000 - units .binary32 0xBF800000 -
        units .binary32 (fsub .binary32 0 0x4B800000 0xBF800000)| := by decide +kernel

theorem witness_SumOverflow :
    isFinite .binary32 0x7F7FFFFF = true ∧ isFinite .binary32 0xFF7FFFFF = true ∧
    isInf .binary32 (fadd .binary32 0 0x7F7FFFFF 0x7F7FFFFF) = true ∧
    isInf .binary32 (fsub .binary32 0 0xFF7FFFFF 0x7F7FFFFF) = true := by decide +kernel

theorem witness_ZeroSumsHaveTheRuledSign :
    isFinite .binary32 0x80000000 = true ∧ isFinite .binary32 0 = true ∧
    units .binary32 0x80000000 + units .binary32 0x80000000 = 0 ∧
    units .binary32 0x80000000 - units .binary32 0 = 0 := by decide +kernel

theorem witness_InfiniteSums :
    isInf .binary32 0x7F800000 = true ∧ isInf .binary32 0xFF800000 = true ∧
    isNaN .binary32 (fadd .binary32 0 0x7F800000 0x7F800000) = false ∧
    isNaN .binary32 (fadd .binary32 0 0 0xFF800000) = false ∧
    isNaN .binary32 (fsub .binary32 0 0x7F800000 0xFF800000) = false := by decide +kernel

theorem witness_DrawReachesEveryNaN :
    Word.fits .binary32 0xFFFFFFFF = true ∧ isNaN .binary32 0xFFFFFFFF = true ∧ isNaN .binary32 0x7F800001 = true := by
  decide

-- the boundary: one less than 2^24 smallest subnormals
theorem witness_SmallSumsAreExact :
    isFinite .binary32 0x00FFFFFF = true ∧ isFinite .binary32 0 = true ∧
    (units .binary32 0x00FFFFFF + units .binary32 0).natAbs < 2 ^ (Fmt.binary32.fracBits + 1) ∧
    (units .binary32 0x00FFFFFF - units .binary32 0).natAbs < 2 ^ (Fmt.binary32.fracBits + 1) := by decide +kernel

-- −2.0 is the boundary
theorem witness_BoundedRotationIsFinite :
    (isFinite .binary64 0xC000000000000000 = true ∧
      mag .binary64 0xC000000000000000 ≤ 2 * mag .binary64 (one .binary64)) ∧ magAtMost .binary32 2 0x40000000 := by
  unfold magAtMost
  decide +kernel

/-- A state whose command completes at the next edge, where a response is also taken. -/
def completing : State :=
  { live64 with inFlight := some ⟨⟨0b00#2, 0, 0⟩, 1⟩, rsps := [rsp0], script := [{ Drive.idle with rspReady := true }] }

theorem witness_StepRunsTheCommandInFlight : completing.inFlight = some ⟨⟨0b00#2, 0, 0⟩, 1⟩ ∧ 1 ≤ 1 ∧
    completing.nextDrive.meetsTiming = true ∧ completing.nextDrive.rst = false := by decide

theorem witness_PlacedWordIsRun : decode live32.fmt ((2 ^ 66 - 1) % 2 ^ 72) = .ok (.reserved 0xFFFFFFFF 0xFFFFFFFF) := by
  decide

/-- A ready engine that is offered a command and has a response taken. -/
def offered : State := { live32 with rsps := [rsp1], script := [offer 0b01#2 0x3FC90FDB 0x7FC00000] }

theorem witness_OfferedCommandTransfers : offered.nextDrive.meetsTiming = true ∧ offered.nextDrive.rst = false ∧
    offered.nextDrive.cmdValid = true ∧ offered.cmdReady = true := by decide

theorem witness_FlightCountsDown :
    ({ live64 with inFlight := some ⟨⟨0b10#2, 0, 0⟩, 2⟩ } : State).inFlight = some ⟨⟨0b10#2, 0, 0⟩, 2⟩ ∧ 1 < 2 ∧
    ({ live64 with inFlight := some ⟨⟨0b10#2, 0, 0⟩, 2⟩ } : State).nextDrive.meetsTiming = true ∧
    ({ live64 with inFlight := some ⟨⟨0b10#2, 0, 0⟩, 2⟩ } : State).nextDrive.rst = false := by decide

theorem witness_UnreadyEdgeIgnoresTheCommandPort : completing.cmdReady = false ∧
    ({ live64 with rsps := [rsp0, rsp1] } : State).cmdReady = false := by decide

theorem witness_OfferedResponseIsHeld :
    (∃ t, step { live64 with rsps := [rsp0, rsp1] } = .next t) ∧
    ({ live64 with rsps := [rsp0, rsp1] } : State).rspOut = some rsp0 ∧
    ({ live64 with rsps := [rsp0, rsp1] } : State).nextDrive.rst = false ∧
    ({ live64 with rsps := [rsp0, rsp1] } : State).nextDrive.rspReady = false := ⟨⟨_, rfl⟩, by decide⟩

theorem witness_ResponsesKeepTheirOrder : (∃ t, step completing = .next t) ∧ completing.nextDrive.rst = false :=
  ⟨⟨_, rfl⟩, by decide⟩

theorem witness_TakingAResponseHasNoSideEffect :
    (∃ t, clockEdge { Drive.idle with rspReady := true } completing = .next t) ∧
    (∃ t, clockEdge { Drive.idle with rspReady := false } completing = .next t) := ⟨⟨_, rfl⟩, ⟨_, rfl⟩⟩

/-- A full queue, and a host that offers a command and takes a response, or not. -/
def full (ready : Bool) : State :=
  { live64 with rsps := [rsp0, rsp1], script := [{ offer 0b00#2 0 0 with rspReady := ready }] }

theorem witness_FullQueueHoldsTheEngine : ∀ ready : Bool, (full ready).nextDrive.meetsTiming = true ∧
    (full ready).nextDrive.rst = false ∧ (full ready).prevRst = false ∧ (full ready).inFlight = none ∧
    (full ready).rsps.length = (full ready).params.rspDepth ∧ 1 ≤ (full ready).params.rspDepth ∧
    (full ready).nextDrive.rspReady = ready := by decide

theorem witness_QuietEdgeHoldsTheState : live64.nextDrive.meetsTiming = true ∧ live64.nextDrive.rst = false ∧
    live64.nextDrive.cmdValid = false ∧ live64.nextDrive.rspReady = false ∧ live64.prevRst = false ∧
    live64.inFlight = none := by decide

theorem witness_ResetEdgeEntersTheResetState :
    ({ completing with script := [resetDrive] } : State).nextDrive.meetsTiming = true ∧
    ({ completing with script := [resetDrive] } : State).nextDrive.rst = true := by decide

theorem witness_FirstEdgeWithoutResetLeavesIt : State.reset.prevRst = true ∧ State.reset.inFlight = none ∧
    State.reset.rsps = [] ∧ 1 ≤ State.reset.params.rspDepth ∧ State.reset.nextDrive.meetsTiming = true ∧
    State.reset.nextDrive.rst = false := by decide

theorem witness_BadTimingHasNoMove :
    ({ live64 with script := [{ Drive.idle with meetsTiming := false }] } : State).nextDrive.meetsTiming = false := by
  decide

theorem witness_InstanceNeverChanges : ∃ t, step completing = .next t := ⟨_, rfl⟩

/-- A CONSTRUCT completes on an engine that was not constructed. -/
def constructing : State := { fresh64 with inFlight := some ⟨⟨0b10#2, 0, 0⟩, 1⟩ }

theorem witness_OnlyTheRuledCommandsWriteRegisters : ∃ t, step constructing = .next t ∧
    constructing.nextDrive.rst = false ∧ t.stepVec ≠ constructing.stepVec ∧ t.phaseVec ≠ constructing.phaseVec ∧
    t.constructed ≠ constructing.constructed :=
  ⟨_, rfl, by decide, Option.some_ne_none _, Option.some_ne_none _, by decide⟩

-- the queue's boundary: one waiting response and one command in flight, RSP_DEPTH 2
theorem witness_invariants : completing.inv = true ∧ (∃ t, step completing = .next t) ∧ completing.rsps.length = 1 ∧
    (params .binary32).valid = true := ⟨by decide, ⟨_, rfl⟩, by decide, by decide⟩

theorem witness_ResetBitMeansResetState : ∃ t, step { completing with script := [resetDrive] } = .next t ∧ t.prevRst = true :=
  ⟨_, rfl, rfl⟩

/-- A host that offers SETSTEP (latency 2) and then the reserved opcode, taking responses throughout. -/
def scripted : State :=
  { live64 with script := [offer 0b01#2 0 0, offer 0b11#2 0 0, offer 0b11#2 0 0, offer 0b11#2 0 0, Drive.idle] }

-- over five edges SETSTEP and one reserved command transfer and complete
theorem witness_EdgesRefineAtomicCommands : scripted.quietFor 5 = true ∧ scripted.inFlight = none ∧
    (∃ t, runEdges 5 scripted = .next t ∧ t.inFlight = none) ∧
    transferredIn 5 scripted = [.setstep 0 0, .reserved 0 0] :=
  ⟨by decide, by decide, ⟨_, rfl, rfl⟩, rfl⟩

theorem witness_TransferredCommandIsAnsweredInTime :
    ({ constructing with inFlight := some ⟨⟨0b10#2, 0, 0⟩, 3⟩ } : State).inFlight = some ⟨⟨0b10#2, 0, 0⟩, 3⟩ ∧ 1 ≤ 3 ∧
    ({ constructing with inFlight := some ⟨⟨0b10#2, 0, 0⟩, 3⟩ } : State).quietFor 3 = true ∧
    commandUndefined (InFlight.instr ⟨⟨0b10#2, 0, 0⟩, 3⟩)
      { constructing with inFlight := some ⟨⟨0b10#2, 0, 0⟩, 3⟩ } = false := by decide

end Sys2Proof.Machine.Tests
end

section
/-! PROOFS. The scope statements (00_scope.md): the draws of NaNDraw reach exactly the NaN encodings (O30), no step
changes the parameters of R8 (O50), and the reset state for valid parameters meets the invariants (O57). -/

namespace Sys2Proof.Machine

/-! ### A word is its sign and its lower FLEN−1 bits, and those are its two other fields (R11) -/

theorem withSign_signBit_lowBits (f : Fmt) {w : Word} (hw : Word.fits f w = true) :
    withSign f (signBit f w) (lowBits f w) = w := by
  apply BitVec.eq_of_toNat_eq
  rw [withSign_toNat f _ _ (lowBits_lt f w), signBit_eq, lowBits]
  have hlt : w.toNat < 2 ^ f.flen := by simpa [Word.fits] using hw
  cases f <;> simp only [Fmt.flen, beq_iff_eq] at * <;> split <;> omega

theorem lowBits_eq_fields (f : Fmt) (w : Word) :
    lowBits f w = expField f w * 2 ^ f.fracBits + fracField f w := by
  rw [expField_eq, fracField_eq, Nat.div_add_mod']

/-! ### Every NaN encoding has a number (R112) -/

theorem isNaN_iff (f : Fmt) (w : Word) :
    isNaN f w = true ↔ expField f w = expMax f ∧ fracField f w ≠ 0 := by
  simp [isNaN]

/-- The draw that gives the NaN encoding `w`: the inverse of `nanOf`, the sign in its lowest bit and the nonzero
fraction, counted from 0, above it. -/
def nanNumber (f : Fmt) (w : Word) : Nat := (signBit f w).toNat + 2 * (fracField f w - 1)

theorem nanNumber_mod_two (f : Fmt) (w : Word) : (nanNumber f w % 2 == 1) = signBit f w := by
  cases h : signBit f w <;> simp [nanNumber, h]

theorem nanNumber_div_two (f : Fmt) (w : Word) : nanNumber f w / 2 = fracField f w - 1 := by
  have hsign := Bool.toNat_lt (signBit f w)
  unfold nanNumber
  omega

theorem nanOf_nanNumber (f : Fmt) {w : Word} (hw : Word.fits f w = true) (hn : isNaN f w = true) :
    nanOf f (nanNumber f w) = w := by
  obtain ⟨hexp, hfrac⟩ := (isNaN_iff f w).1 hn
  have hlt : fracField f w < 2 ^ f.fracBits := Nat.mod_lt _ (Nat.two_pow_pos _)
  have hmod : (fracField f w - 1) % (2 ^ f.fracBits - 1) = fracField f w - 1 := Nat.mod_eq_of_lt (by omega)
  have hlow : infLow f + 1 + (fracField f w - 1) = lowBits f w := by
    rw [lowBits_eq_fields, hexp, infLow]
    omega
  rw [nanOf, nanNumber_mod_two, nanNumber_div_two, hmod, hlow, withSign_signBit_lowBits f hw]

/-- Settles O30: `nanOf` answers FLEN-bit NaNs only, and `nanNumber` is a number for each of them. -/
theorem drawReachesEveryNaN : Obligations.DrawReachesEveryNaN := fun f =>
  ⟨fun n => ⟨isNaN_nanOf f n, nanOf_fits f n⟩, fun w hw hn => ⟨nanNumber f w, nanOf_nanNumber f hw hn⟩⟩

/-! ### No edge changes the parameters (R8) -/

theorem clockEdge_params {d : Drive} {s t : State} (h : clockEdge d s = .next t) : t.params = s.params := by
  obtain ⟨-, ⟨-, rfl⟩ | ⟨-, -, rfl⟩ | ⟨-, c, -, -, hexec⟩ | ⟨-, c, -, -, rfl⟩⟩ := clockEdge_cases h
  · simp
  · simp
  · obtain ⟨hparams, -⟩ := exec_next hexec
    simpa using hparams
  · simp

/-- Settles O50, by the four kinds of edge: only the completing one runs a command, and no command writes the
parameters. -/
theorem instanceNeverChanges : Obligations.InstanceNeverChanges := by
  intro s t h
  rw [step_eq] at h
  rw [clockEdge_params h, State.dropDrive_params]

/-! ### The reset state meets the invariants (R29, R33) -/

/-- No register holds a value and nothing is queued or in flight, so of the invariants only the validity of
the parameters is left. -/
theorem resetOf_inv (p : Params) : (State.resetOf p).inv = p.valid := by
  have hregs : (State.resetOf p).regsHeld = true := rfl
  have hroom : (State.resetOf p).roomKept = true := decide_eq_true (Nat.zero_le p.rspDepth)
  have hwidths : (State.resetOf p).widthsFit = true := rfl
  have hflight : (State.resetOf p).flightTimed = true := rfl
  have hclean : (State.resetOf p).resetClean = true := rfl
  have hparams : (State.resetOf p).params = p := rfl
  simp [State.inv, hregs, hroom, hwidths, hflight, hclean, hparams]

/-- Settles O57: the second part is the first for the parameters of log 2, which are valid. -/
theorem resetMeetsTheInvariants : Obligations.ResetMeetsTheInvariants :=
  ⟨fun p hp => (resetOf_inv p).trans hp, (resetOf_inv Config.resetParams).trans (by decide)⟩

end Sys2Proof.Machine
end

section
/-! PROOFS. The state statements (10_state.md): what each command and each edge leaves alone (O14, O51), the reset
state (O46, O47, O56), and the two invariants of the data, that STEP and PHASE hold values exactly when CONSTRUCTED
is 1 (O52) and that every datum is FLEN bits wide (O54). -/

namespace Sys2Proof.Machine

/-! ### What each command leaves alone (R21 to R23, R25) -/

theorem exec_construct_frame {a b : Word} {s t : State} (h : exec (.construct a b) s = .next t) :
    t.nanDraws = s.nanDraws := by
  obtain ⟨-, -, rfl⟩ := execConstruct_cases h
  rfl

theorem exec_setstep_frame {a b : Word} {s t : State} (h : exec (.setstep a b) s = .next t) :
    t.phaseVec = s.phaseVec ∧ t.constructed = s.constructed ∧ t.nanDraws = s.nanDraws := by
  obtain ⟨-, -, rfl⟩ | ⟨-, rfl⟩ := execSetstep_cases (a := a) (b := b) h <;> exact ⟨rfl, rfl, rfl⟩

theorem exec_advance_frame {a b : Word} {s t : State} (h : exec (.advance a b) s = .next t) :
    t.stepVec = s.stepVec ∧ t.constructed = s.constructed := by
  obtain ⟨p, w, -, -, -, rfl⟩ | ⟨-, rfl⟩ := execAdvance_cases (a := a) (b := b) h <;> exact ⟨rfl, rfl⟩

theorem exec_reserved_frame {a b : Word} {s t : State} (h : exec (.reserved a b) s = .next t) :
    t.stepVec = s.stepVec ∧ t.phaseVec = s.phaseVec ∧ t.constructed = s.constructed ∧ t.nanDraws = s.nanDraws := by
  obtain rfl := execReserved_cases (a := a) (b := b) h
  exact ⟨rfl, rfl, rfl, rfl⟩

/-- Settles O14: the common part is `exec_next`, the rest one frame lemma per command. -/
theorem commandFrame : Obligations.CommandFrame := by
  intro i s t h
  obtain ⟨hparams, hflight, hrst, hscript, htaken, hrsps⟩ := exec_next h
  refine ⟨hparams, hflight, hrst, hscript, htaken, hrsps, ?_, ?_, ?_, ?_⟩ <;> rintro a b rfl
  · exact exec_construct_frame h
  · exact exec_setstep_frame h
  · exact exec_advance_frame h
  · exact exec_reserved_frame h

/-! ### Which commands write which register -/

theorem exec_stepVec_writers {i : Instr} {s t : State} (h : exec i s = .next t) (hne : t.stepVec ≠ s.stepVec) :
    (∃ a b, i = .construct a b) ∨ (∃ a b, i = .setstep a b) := by
  cases i with
  | construct a b => exact .inl ⟨a, b, rfl⟩
  | setstep a b => exact .inr ⟨a, b, rfl⟩
  | advance a b => exact absurd (exec_advance_frame h).1 hne
  | reserved a b => exact absurd (exec_reserved_frame h).1 hne

theorem exec_phaseVec_writers {i : Instr} {s t : State} (h : exec i s = .next t) (hne : t.phaseVec ≠ s.phaseVec) :
    (∃ a b, i = .construct a b) ∨ (∃ a b, i = .advance a b) := by
  cases i with
  | construct a b => exact .inl ⟨a, b, rfl⟩
  | advance a b => exact .inr ⟨a, b, rfl⟩
  | setstep a b => exact absurd (exec_setstep_frame h).1 hne
  | reserved a b =>
    obtain ⟨-, hphase, -⟩ := exec_reserved_frame h
    exact absurd hphase hne

theorem exec_constructed_writers {i : Instr} {s t : State} (h : exec i s = .next t)
    (hne : t.constructed ≠ s.constructed) : t.constructed = true ∧ ∃ a b, i = .construct a b := by
  cases i with
  | construct a b =>
    obtain ⟨-, -, rfl⟩ := execConstruct_cases h
    exact ⟨rfl, a, b, rfl⟩
  | advance a b => exact absurd (exec_advance_frame h).2 hne
  | setstep a b =>
    obtain ⟨-, hconstructed, -⟩ := exec_setstep_frame h
    exact absurd hconstructed hne
  | reserved a b =>
    obtain ⟨-, -, hconstructed, -⟩ := exec_reserved_frame h
    exact absurd hconstructed hne

/-! ### What an edge does to the registers (R160, R170) -/

/-- The state in which the command in flight completes: its flight has ended, and the host has taken the oldest
response if it was ready for it. -/
def State.landed (d : Drive) (s : State) : State := ((s.takeResponse d).setInFlight none).setPrevRst false

/-- An edge clears the registers (reset), leaves all three alone, or is the edge at which a command completes. -/
theorem clockEdge_regs {d : Drive} {s t : State} (h : clockEdge d s = .next t) :
    (d.rst = true ∧ t = s.enterReset) ∨
    (t.stepVec = s.stepVec ∧ t.phaseVec = s.phaseVec ∧ t.constructed = s.constructed) ∨
    (∃ c, s.inFlight = some c ∧ c.left ≤ 1 ∧ exec c.instr (s.landed d) = .next t) := by
  obtain ⟨-, hreset | ⟨-, -, rfl⟩ | ⟨-, c, hc, hleft, hexec⟩ | ⟨-, c, -, -, rfl⟩⟩ := clockEdge_cases h
  · exact .inl hreset
  · exact .inr (.inl (by simp))
  · exact .inr (.inr ⟨c, hc, hleft, hexec⟩)
  · exact .inr (.inl (by simp))

@[simp] theorem State.landed_stepVec (d : Drive) (s : State) : (s.landed d).stepVec = s.stepVec := by
  simp [State.landed]
@[simp] theorem State.landed_phaseVec (d : Drive) (s : State) : (s.landed d).phaseVec = s.phaseVec := by
  simp [State.landed]
@[simp] theorem State.landed_constructed (d : Drive) (s : State) : (s.landed d).constructed = s.constructed := by
  simp [State.landed]

/-- Settles O51: an edge without reset that changes a register completes a command, and that command writes it. -/
theorem onlyTheRuledCommandsWriteRegisters : Obligations.OnlyTheRuledCommandsWriteRegisters := by
  intro s t h hrst
  rw [step_eq] at h
  obtain ⟨hrst', -⟩ | ⟨hstep, hphase, hconstructed⟩ | ⟨c, hc, hleft, hexec⟩ := clockEdge_regs h
  · simp [hrst] at hrst'
  · exact ⟨absurd hstep, absurd hphase, absurd hconstructed⟩
  · refine ⟨fun hne => ⟨c, hc, hleft, exec_stepVec_writers hexec (by simpa using hne)⟩,
      fun hne => ⟨c, hc, hleft, exec_phaseVec_writers hexec (by simpa using hne)⟩, fun hne => ?_⟩
    obtain ⟨htrue, hconstruct⟩ := exec_constructed_writers hexec (by simpa using hne)
    exact ⟨htrue, c, hc, hleft, hconstruct⟩

/-! ### STEP and PHASE hold values exactly when CONSTRUCTED is 1 (R25, R29) -/

theorem State.regsHeld_iff (s : State) :
    s.regsHeld = true ↔ s.stepVec.isSome = s.constructed ∧ s.phaseVec.isSome = s.constructed := by
  simp [State.regsHeld]

theorem State.regsHeld_congr {s t : State} (hstep : t.stepVec = s.stepVec) (hphase : t.phaseVec = s.phaseVec)
    (hconstructed : t.constructed = s.constructed) : t.regsHeld = s.regsHeld := by
  rw [State.regsHeld, State.regsHeld, hstep, hphase, hconstructed]

/-- A command writes a register only where the other holds a value too, or writes both with CONSTRUCTED. -/
theorem exec_keeps_regsHeld {i : Instr} {s t : State} (hs : s.regsHeld = true) (h : exec i s = .next t) :
    t.regsHeld = true := by
  rw [State.regsHeld_iff] at hs ⊢
  obtain ⟨hstep, hphase⟩ := hs
  cases i with
  | construct a b =>
    obtain ⟨-, -, rfl⟩ := execConstruct_cases h
    exact ⟨rfl, rfl⟩
  | setstep a b =>
    obtain ⟨hconstructed, -, rfl⟩ | ⟨-, rfl⟩ := execSetstep_cases (a := a) (b := b) h
    · exact ⟨hconstructed.symm, hphase⟩
    · exact ⟨hstep, hphase⟩
  | advance a b =>
    obtain ⟨p, w, hconstructed, -, -, rfl⟩ | ⟨-, rfl⟩ := execAdvance_cases (a := a) (b := b) h
    · exact ⟨hstep, hconstructed.symm⟩
    · exact ⟨hstep, hphase⟩
  | reserved a b =>
    obtain rfl := execReserved_cases (a := a) (b := b) h
    exact ⟨hstep, hphase⟩

theorem clockEdge_keeps_regsHeld {d : Drive} {s t : State} (hs : s.regsHeld = true) (h : clockEdge d s = .next t) :
    t.regsHeld = true := by
  obtain ⟨-, rfl⟩ | ⟨hstep, hphase, hconstructed⟩ | ⟨c, -, -, hexec⟩ := clockEdge_regs h
  · rfl
  · rwa [State.regsHeld_congr hstep hphase hconstructed]
  · have hlanded : (s.landed d).regsHeld = s.regsHeld := State.regsHeld_congr (by simp) (by simp) (by simp)
    exact exec_keeps_regsHeld (hlanded.trans hs) hexec

theorem State.regsHeld_dropDrive (s : State) : s.dropDrive.regsHeld = s.regsHeld := rfl

/-- Settles O52: consuming the drive touches no register, and every edge keeps the invariant. -/
theorem registersHeldExactlyWhenConstructed : Obligations.RegistersHeldExactlyWhenConstructed :=
  fun s _ hs h => clockEdge_keeps_regsHeld ((State.regsHeld_dropDrive s).trans hs) h

/-! ### Every datum is FLEN bits wide (R20, R40, R62): one rule per update -/

theorem State.widthsFit_iff (s : State) :
    s.widthsFit = true ↔ (∀ v, s.stepVec = some v → Pair.fits s.fmt v = true) ∧
      (∀ v, s.phaseVec = some v → Pair.fits s.fmt v = true) ∧ (∀ r ∈ s.rsps, Response.fits s.fmt r = true) ∧
      (∀ c, s.inFlight = some c → Command.fits s.fmt c.cmd = true) := by
  simp [State.widthsFit, Option.all_eq_true, and_assoc]

theorem posZero_fits (f : Fmt) : Word.fits f posZero = true := by cases f <;> decide

theorem sampleCommand_fits (f : Fmt) (c : Command) : Command.fits f (sampleCommand f c) = true := by
  simp [Command.fits, sampleCommand, portWord_fits]

theorem State.widthsFit_writeStep {s : State} {v : Pair} (hs : s.widthsFit = true) (hv : Pair.fits s.fmt v = true) :
    (s.writeStep v).widthsFit = true := by
  rw [State.widthsFit_iff] at hs ⊢
  obtain ⟨-, hphase, hrsps, hflight⟩ := hs
  exact ⟨by simpa using hv, hphase, hrsps, hflight⟩

theorem State.widthsFit_writePhase {s : State} {v : Pair} (hs : s.widthsFit = true) (hv : Pair.fits s.fmt v = true) :
    (s.writePhase v).widthsFit = true := by
  rw [State.widthsFit_iff] at hs ⊢
  obtain ⟨hstep, -, hrsps, hflight⟩ := hs
  exact ⟨hstep, by simpa using hv, hrsps, hflight⟩

theorem State.widthsFit_respond {s : State} {p : Pair} (code : RspCode) (hs : s.widthsFit = true)
    (hp : Pair.fits s.fmt p = true) : (s.respond code p.sin p.cos).widthsFit = true := by
  rw [State.widthsFit_iff] at hs ⊢
  obtain ⟨hstep, hphase, hrsps, hflight⟩ := hs
  refine ⟨hstep, hphase, fun r hr => ?_, hflight⟩
  rw [State.respond_rsps, List.mem_append, List.mem_singleton] at hr
  obtain hr | rfl := hr
  · exact hrsps r hr
  · exact hp

theorem State.widthsFit_respondZero {s : State} (code : RspCode) (hs : s.widthsFit = true) :
    (s.respondZero code).widthsFit = true :=
  State.widthsFit_respond (p := ⟨posZero, posZero⟩) code hs (by simp [Pair.fits, posZero_fits])

theorem State.widthsFit_takeResponse {s : State} (d : Drive) (hs : s.widthsFit = true) :
    (s.takeResponse d).widthsFit = true := by
  rw [State.widthsFit_iff] at hs ⊢
  obtain ⟨hstep, hphase, hrsps, hflight⟩ := hs
  simp only [State.takeResponse_stepVec, State.takeResponse_phaseVec, State.takeResponse_inFlight,
    State.takeResponse_fmt]
  exact ⟨hstep, hphase, fun r hr => hrsps r (State.mem_takeResponse d s hr), hflight⟩

theorem State.widthsFit_setInFlight {s : State} {v : Option InFlight} (hs : s.widthsFit = true)
    (hv : ∀ c, v = some c → Command.fits s.fmt c.cmd = true) : (s.setInFlight v).widthsFit = true := by
  rw [State.widthsFit_iff] at hs ⊢
  obtain ⟨hstep, hphase, hrsps, -⟩ := hs
  exact ⟨hstep, hphase, hrsps, hv⟩

/-- Whatever the host drives, the ports sample FLEN bits of it (R40). -/
theorem State.widthsFit_acceptCommand {s : State} (d : Drive) (hs : s.widthsFit = true) :
    (s.acceptCommand d).widthsFit = true := by
  unfold State.acceptCommand
  split
  · refine State.widthsFit_setInFlight hs ?_
    rintro _ ⟨⟩
    exact sampleCommand_fits s.fmt d.cmd
  · exact hs

@[simp] theorem State.widthsFit_setConstructed (s : State) (v : Bool) :
    (s.setConstructed v).widthsFit = s.widthsFit := rfl
@[simp] theorem State.widthsFit_advanceDraws (s : State) : s.advanceDraws.widthsFit = s.widthsFit := rfl
@[simp] theorem State.widthsFit_setPrevRst (s : State) (v : Bool) : (s.setPrevRst v).widthsFit = s.widthsFit := rfl
@[simp] theorem State.widthsFit_dropDrive (s : State) : s.dropDrive.widthsFit = s.widthsFit := rfl

/-! ### Every command and every edge keeps the widths -/

/-- What SinCos and Rotate answer is FLEN bits wide, and ADVANCE responds with the PHASE it read. -/
theorem exec_keeps_widthsFit {i : Instr} {s t : State} (hs : s.widthsFit = true) (h : exec i s = .next t) :
    t.widthsFit = true := by
  cases i with
  | construct a b =>
    obtain ⟨-, -, rfl⟩ := execConstruct_cases h
    have hstep := State.widthsFit_writeStep hs (sinCos_fits s.fmt (portWord s.fmt b))
    have hphase := State.widthsFit_writePhase hstep (sinCos_fits s.fmt (portWord s.fmt a))
    exact State.widthsFit_respondZero _ ((State.widthsFit_setConstructed _ true).trans hphase)
  | setstep a b =>
    obtain ⟨-, -, rfl⟩ | ⟨-, rfl⟩ := execSetstep_cases (a := a) (b := b) h
    · exact State.widthsFit_respondZero _ (State.widthsFit_writeStep hs (sinCos_fits s.fmt (portWord s.fmt a)))
    · exact State.widthsFit_respondZero _ hs
  | advance a b =>
    obtain ⟨p, w, -, hp, -, rfl⟩ | ⟨-, rfl⟩ := execAdvance_cases (a := a) (b := b) h
    · obtain ⟨-, hphase, -⟩ := (State.widthsFit_iff s).1 hs
      have hrotated := State.widthsFit_writePhase hs (rotate_fits s.fmt s.nanDraws p w)
      exact State.widthsFit_respond .ok ((State.widthsFit_advanceDraws _).trans hrotated) (hphase p hp)
    · exact State.widthsFit_respondZero _ hs
  | reserved a b =>
    obtain rfl := execReserved_cases (a := a) (b := b) h
    exact State.widthsFit_respondZero _ hs

theorem State.widthsFit_landed {s : State} (d : Drive) (hs : s.widthsFit = true) :
    (s.landed d).widthsFit = true :=
  (State.widthsFit_setPrevRst _ false).trans
    (State.widthsFit_setInFlight (State.widthsFit_takeResponse d hs) (by simp))

theorem clockEdge_keeps_widthsFit {d : Drive} {s t : State} (hs : s.widthsFit = true)
    (h : clockEdge d s = .next t) : t.widthsFit = true := by
  obtain ⟨-, ⟨-, rfl⟩ | ⟨-, -, rfl⟩ | ⟨-, c, -, -, hexec⟩ | ⟨-, c, hc, -, rfl⟩⟩ := clockEdge_cases h
  · rfl
  · rw [State.widthsFit_setPrevRst]
    exact State.widthsFit_takeResponse d (State.widthsFit_acceptCommand d hs)
  · exact exec_keeps_widthsFit (State.widthsFit_landed d hs) hexec
  · obtain ⟨-, -, -, hflight⟩ := (State.widthsFit_iff s).1 hs
    rw [State.widthsFit_setPrevRst]
    refine State.widthsFit_setInFlight (State.widthsFit_takeResponse d hs) ?_
    rintro _ ⟨⟩
    simpa using hflight c hc

/-- Settles O54: consuming the drive touches no datum, and every edge keeps the widths. -/
theorem everyDatumStaysFLENBitsWide : Obligations.EveryDatumStaysFLENBitsWide :=
  fun s _ hs h => clockEdge_keeps_widthsFit ((State.widthsFit_dropDrive s).trans hs) h

/-! ### The reset state (R33, R160, R162) -/

theorem clockEdge_of_rst {d : Drive} {s : State} (hm : d.meetsTiming = true) (hrst : d.rst = true) :
    clockEdge d s = .next s.enterReset := by
  simp [clockEdge, hm, hrst]

theorem clockEdge_prevRst {d : Drive} {s t : State} (h : clockEdge d s = .next t) : t.prevRst = d.rst := by
  obtain ⟨-, ⟨hrst, rfl⟩ | ⟨hrst, -, rfl⟩ | ⟨hrst, c, -, -, hexec⟩ | ⟨hrst, c, -, -, rfl⟩⟩ := clockEdge_cases h
  · simp [hrst]
  · simp [hrst]
  · obtain ⟨-, -, hprev, -⟩ := exec_next hexec
    simpa [hrst] using hprev
  · simp [hrst]

theorem clockEdge_resetClean {d : Drive} {s t : State} (h : clockEdge d s = .next t) : t.resetClean = true := by
  have hprev := clockEdge_prevRst h
  obtain ⟨hm, -⟩ := clockEdge_cases h
  cases hrst : d.rst with
  | true =>
    rw [clockEdge_of_rst hm hrst] at h
    cases h
    rfl
  | false => simp [State.resetClean, hprev, hrst]

/-- Settles O56: the reset bit after an edge is its `rst`, and an edge with `rst` = 1 enters the reset state. -/
theorem resetBitMeansResetState : Obligations.ResetBitMeansResetState :=
  fun _ _ h => ⟨clockEdge_resetClean h, clockEdge_prevRst h⟩

/-- Settles O46: whatever else the drive holds, the edge enters the reset state, and the output ports read it. -/
theorem resetEdgeEntersTheResetState : Obligations.ResetEdgeEntersTheResetState :=
  fun s hm hrst => ⟨s.dropDrive.enterReset, clockEdge_of_rst hm hrst, rfl, rfl, rfl, rfl⟩

/-- Settles O47: each field and port of `State.resetOf` by its definition, and State.reset has the
parameters of log 2. -/
theorem resetStateValues : Obligations.ResetStateValues :=
  ⟨fun _ => ⟨rfl, rfl, rfl, rfl, rfl, rfl, rfl, rfl⟩, Config.resetParams, rfl⟩

end Sys2Proof.Machine
end

section
/-! PROOFS. The port statements (20_memory.md): the two handshakes at one edge (O36, O37, O40 to O44, O49), the command
in flight and its response (O12, O34, O35, O59), room in the queue (O53), and any run of edges as the atomic commands
that transferred in it (O58). -/

namespace Sys2Proof.Machine

/-! ### The output ports and the two handshakes (R42 to R44) -/

theorem State.cmdReady_iff (s : State) :
    s.cmdReady = true ↔ s.prevRst = false ∧ s.inFlight = none ∧ s.rsps.length < s.params.rspDepth := by
  simp [State.cmdReady, State.hasRoom, and_assoc]

/-- Settles O36. -/
theorem readyExactlyWhenFree : Obligations.ReadyExactlyWhenFree := State.cmdReady_iff

theorem State.cmdReady_of_inFlight {s : State} {c : InFlight} (hc : s.inFlight = some c) : s.cmdReady = false := by
  simp [State.cmdReady, hc]

theorem State.rspOut_eq_some_iff (s : State) (r : Response) :
    s.rspOut = some r ↔ s.prevRst = false ∧ s.rsps.head? = some r := by
  cases hrsps : s.rsps <;> simp [State.rspOut, State.rspValid, hrsps]

/-- A valid response port shows the oldest waiting response. -/
theorem State.rspOut_of_rspValid {s : State} (h : s.rspValid = true) :
    ∃ r, s.rspOut = some r ∧ s.rsps.head? = some r := by
  cases hrsps : s.rsps <;> simp_all [State.rspOut, State.rspValid]

theorem cmdTransfers_iff (d : Drive) (s : State) :
    cmdTransfers d s = true ↔ d.rst = false ∧ d.cmdValid = true ∧ s.cmdReady = true := by
  simp [cmdTransfers, and_assoc]

theorem cmdTransfers_of_not_ready {d : Drive} {s : State} (h : s.cmdReady = false) : cmdTransfers d s = false := by
  simp [cmdTransfers, h]

theorem rspTransfers_iff (d : Drive) (s : State) :
    rspTransfers d s = true ↔ d.rst = false ∧ s.rspValid = true ∧ d.rspReady = true := by
  simp [rspTransfers, and_assoc]

theorem rspTransfers_of_not_rspReady {d : Drive} {s : State} (h : d.rspReady = false) : rspTransfers d s = false := by
  simp [rspTransfers, h]

theorem State.acceptCommand_of (d : Drive) (s : State) (h : cmdTransfers d s = true) :
    s.acceptCommand d =
      s.setInFlight (some { cmd := sampleCommand s.fmt d.cmd, left := latency s.params d.cmd.op }) := by
  simp [State.acceptCommand, h]

/-- Taking a response does not look at the command side. -/
theorem State.takeResponse_setInFlight (d : Drive) (s : State) (v : Option InFlight) :
    (s.setInFlight v).takeResponse d = (s.takeResponse d).setInFlight v := by
  cases h : rspTransfers d s
  · rw [State.takeResponse_of_not d s h, State.takeResponse_of_not d (s.setInFlight v) h]
  · rw [State.takeResponse_of d s h, State.takeResponse_of d (s.setInFlight v) h]
    rfl

/-- The command side leaves the queue and the host's record to the response side. -/
theorem State.acceptCommand_takeResponse_queue (d : Drive) (s : State) :
    ((s.acceptCommand d).takeResponse d).rsps = (s.takeResponse d).rsps ∧
      ((s.acceptCommand d).takeResponse d).taken = (s.takeResponse d).taken := by
  cases h : cmdTransfers d s
  · rw [State.acceptCommand_of_not d s h]
    exact ⟨rfl, rfl⟩
  · rw [State.acceptCommand_of d s h, State.takeResponse_setInFlight]
    exact ⟨rfl, rfl⟩

/-! ### What one edge answers: an equation per kind of edge (R41, R42, R170) -/

theorem clockEdge_of_bad_timing {d : Drive} {s : State} (h : d.meetsTiming = false) :
    clockEdge d s = .refused .setupHoldViolated := by
  simp [clockEdge, h]

theorem clockEdge_of_free {d : Drive} {s : State} (hm : d.meetsTiming = true) (hrst : d.rst = false)
    (hfree : s.inFlight = none) :
    clockEdge d s = .next (((s.acceptCommand d).takeResponse d).setPrevRst false) := by
  simp [clockEdge, hm, hrst, hfree]

theorem clockEdge_of_last {d : Drive} {s : State} {c : InFlight} (hm : d.meetsTiming = true) (hrst : d.rst = false)
    (hc : s.inFlight = some c) (hleft : c.left ≤ 1) : clockEdge d s = exec c.instr (s.landed d) := by
  simp [clockEdge, hm, hrst, hc, hleft, State.landed]

theorem clockEdge_of_flying {d : Drive} {s : State} {c : InFlight} (hm : d.meetsTiming = true) (hrst : d.rst = false)
    (hc : s.inFlight = some c) (hleft : 1 < c.left) :
    clockEdge d s =
      .next (((s.takeResponse d).setInFlight (some { c with left := c.left - 1 })).setPrevRst false) := by
  simp [clockEdge, hm, hrst, hc, Nat.not_le.2 hleft]

/-- Settles O49. -/
theorem badTimingHasNoMove : Obligations.BadTimingHasNoMove := fun _ h => clockEdge_of_bad_timing h

/-! ### Room in the queue (R46) -/

theorem State.roomKept_iff (s : State) :
    s.roomKept = true ↔ s.rsps.length + (if s.inFlight.isSome then 1 else 0) ≤ s.params.rspDepth := by
  simp [State.roomKept]

theorem State.roomKept_of_free {s : State} (hfree : s.inFlight = none) :
    s.roomKept = true ↔ s.rsps.length ≤ s.params.rspDepth := by
  simp [State.roomKept, hfree]

theorem State.roomKept_of_inFlight {s : State} {c : InFlight} (hc : s.inFlight = some c) :
    s.roomKept = true ↔ s.rsps.length + 1 ≤ s.params.rspDepth := by
  simp [State.roomKept, hc]

theorem State.roomKept_setPrevRst (s : State) (v : Bool) : (s.setPrevRst v).roomKept = s.roomKept := rfl

theorem State.roomKept_takeResponse {s : State} (d : Drive) (hs : s.roomKept = true) :
    (s.takeResponse d).roomKept = true := by
  have hlen := State.takeResponse_length d s
  rw [State.roomKept_iff] at hs ⊢
  simp only [State.takeResponse_inFlight, State.takeResponse_params]
  omega

/-- A command transfers only while the queue has a free entry (R43), which its response will fill. -/
theorem State.roomKept_acceptCommand {s : State} (d : Drive) (hs : s.roomKept = true) :
    (s.acceptCommand d).roomKept = true := by
  cases h : cmdTransfers d s
  · rwa [State.acceptCommand_of_not d s h]
  · obtain ⟨-, -, hready⟩ := (cmdTransfers_iff d s).1 h
    obtain ⟨-, -, hroom⟩ := (State.cmdReady_iff s).1 hready
    rw [State.acceptCommand_of d s h]
    exact (State.roomKept_of_inFlight rfl).2 hroom

/-- The response of a completing command takes the entry its flight held. -/
theorem clockEdge_keeps_roomKept {d : Drive} {s t : State} (hs : s.roomKept = true) (h : clockEdge d s = .next t) :
    t.roomKept = true := by
  have htake := State.roomKept_takeResponse d hs
  obtain ⟨-, ⟨-, rfl⟩ | ⟨-, -, rfl⟩ | ⟨-, c, hc, -, hexec⟩ | ⟨-, c, hc, -, rfl⟩⟩ := clockEdge_cases h
  · exact (State.roomKept_of_free rfl).2 (Nat.zero_le _)
  · rw [State.roomKept_setPrevRst]
    exact State.roomKept_takeResponse d (State.roomKept_acceptCommand d hs)
  · obtain ⟨hparams, hflight, -, -, -, r, hrsps⟩ := exec_next hexec
    rw [State.roomKept_of_inFlight (by simpa using hc)] at htake
    rw [State.roomKept_of_free hflight, hrsps, hparams, List.length_append]
    exact htake
  · rw [State.roomKept_of_inFlight (by simpa using hc)] at htake
    exact (State.roomKept_of_inFlight rfl).2 htake

/-- Settles O53: consuming the drive touches neither queue nor flight, and every edge keeps the bound. -/
theorem queueNeverExceedsItsDepth : Obligations.QueueNeverExceedsItsDepth :=
  fun s _ hs h => clockEdge_keeps_roomKept (s := s.dropDrive) hs h

/-! ### While the engine is not ready, or the queue is full (R42, R46) -/

/-- While `cmd_ready` is 0 an edge looks at the drive only through its timing, `rst` and `rsp_ready`. -/
theorem clockEdge_of_not_ready {d d' : Drive} {s : State} (hready : s.cmdReady = false)
    (hm : d'.meetsTiming = d.meetsTiming) (hrst : d'.rst = d.rst) (hrsp : d'.rspReady = d.rspReady) :
    clockEdge d' s = clockEdge d s := by
  have htake : s.takeResponse d' = s.takeResponse d := by
    simp [State.takeResponse, rspTransfers, hrst, hrsp]
  simp only [clockEdge, hm, hrst, htake, State.acceptCommand_of_not _ s (cmdTransfers_of_not_ready hready)]

/-- Settles O40. -/
theorem unreadyEdgeIgnoresTheCommandPort : Obligations.UnreadyEdgeIgnoresTheCommandPort :=
  fun _ _ _ _ hready => clockEdge_of_not_ready hready rfl rfl rfl

theorem State.rspValid_of_rsps_ne_nil {s : State} (hprev : s.prevRst = false) (hrsps : s.rsps ≠ []) :
    s.rspValid = true := by
  simp [State.rspValid, hprev, hrsps]

/-- Settles O44: a full queue keeps `cmd_ready` at 0, so only the response handshake can act at the edge. -/
theorem fullQueueHoldsTheEngine : Obligations.FullQueueHoldsTheEngine := by
  intro s hm hrst hprev hfree hfull hdepth
  have hready : s.dropDrive.cmdReady = false := by
    rw [Bool.eq_false_iff, State.dropDrive_cmdReady, Ne, State.cmdReady_iff]
    rintro ⟨-, -, hroom⟩
    omega
  have hedge : step s = .next ((s.dropDrive.takeResponse s.nextDrive).setPrevRst false) := by
    rw [step_eq, clockEdge_of_free (s := s.dropDrive) hm hrst hfree,
      State.acceptCommand_of_not _ _ (cmdTransfers_of_not_ready hready)]
  constructor <;> intro htaking
  · rw [hedge, State.takeResponse_of_not _ _ (rspTransfers_of_not_rspReady htaking), ← hprev]
    rfl
  · have hne : s.rsps ≠ [] := List.length_pos_iff.1 (by omega)
    have htransfer : rspTransfers s.nextDrive s.dropDrive = true :=
      (rspTransfers_iff _ _).2 ⟨hrst, State.rspValid_of_rsps_ne_nil hprev hne, htaking⟩
    rw [State.takeResponse_of _ _ htransfer] at hedge
    refine ⟨_, hedge, (State.cmdReady_iff _).2 ⟨rfl, hfree, ?_⟩, rfl, rfl⟩
    simp only [State.setPrevRst_rsps, State.popResponse_rsps, State.dropDrive_rsps, List.length_tail,
      State.setPrevRst_params, State.popResponse_params, State.dropDrive_params]
    omega

/-! ### The responses in their order (R44, R46, R47) -/

/-- At an edge without reset the queue and the host's record change by the response handshake, and then at most one
response is appended to the queue. -/
theorem clockEdge_queue {d : Drive} {s t : State} (hrst : d.rst = false) (h : clockEdge d s = .next t) :
    t.taken = (s.takeResponse d).taken ∧ ∃ new, t.rsps = (s.takeResponse d).rsps ++ new ∧ new.length ≤ 1 := by
  obtain ⟨-, ⟨hrst', -⟩ | ⟨-, -, rfl⟩ | ⟨-, c, -, -, hexec⟩ | ⟨-, c, -, -, rfl⟩⟩ := clockEdge_cases h
  · simp [hrst] at hrst'
  · obtain ⟨hrsps, htaken⟩ := State.acceptCommand_takeResponse_queue d s
    exact ⟨htaken, [], by simpa using hrsps, by simp⟩
  · obtain ⟨-, -, -, -, htaken, r, hrsps⟩ := exec_next hexec
    exact ⟨htaken, [r], hrsps, by simp⟩
  · exact ⟨rfl, [], by simp, by simp⟩

/-- What the response handshake adds to the host's record is the response on the port. -/
theorem State.takeResponse_taken (d : Drive) (s : State) :
    (s.takeResponse d).taken = s.taken ∨
      ∃ r, s.rspOut = some r ∧ d.rspReady = true ∧ (s.takeResponse d).taken = s.taken ++ [r] := by
  cases h : rspTransfers d s
  · exact .inl (by rw [State.takeResponse_of_not d s h])
  · obtain ⟨-, hvalid, hready⟩ := (rspTransfers_iff d s).1 h
    obtain ⟨r, hout, hhead⟩ := State.rspOut_of_rspValid hvalid
    exact .inr ⟨r, hout, hready, by simp [State.takeResponse_of d s h, hhead]⟩

/-- Settles O42: the handshake moves a response without losing it, and the edge appends at most one. -/
theorem responsesKeepTheirOrder : Obligations.ResponsesKeepTheirOrder := by
  intro s t h hrst
  rw [step_eq] at h
  obtain ⟨htaken, new, hrsps, hlen⟩ := clockEdge_queue hrst h
  refine ⟨⟨new, ?_, hlen⟩, ?_⟩
  · rw [State.responses, htaken, hrsps, ← List.append_assoc, State.takeResponse_responses]
    rfl
  · rw [htaken]
    exact State.takeResponse_taken s.nextDrive s.dropDrive

/-- Settles O41: a response that is not taken stays at the head of the queue, whatever is appended. -/
theorem offeredResponseIsHeld : Obligations.OfferedResponseIsHeld := by
  intro s t r h hout hrst hready
  rw [step_eq] at h
  obtain ⟨-, new, hrsps, -⟩ := clockEdge_queue hrst h
  obtain ⟨-, hhead⟩ := (State.rspOut_eq_some_iff s r).1 hout
  rw [State.takeResponse_of_not _ _ (rspTransfers_of_not_rspReady hready)] at hrsps
  refine (State.rspOut_eq_some_iff t r).2 ⟨(clockEdge_prevRst h).trans hrst, ?_⟩
  rw [hrsps, List.head?_append, State.dropDrive_rsps, hhead]
  rfl

/-! ### Every defined command completes with one response (R45, R134, R136) -/

theorem commandUndefined_congr {s s' : State} (i : Instr) (hparams : s'.params = s.params)
    (hconstructed : s'.constructed = s.constructed) : commandUndefined i s' = commandUndefined i s := by
  cases i <;> simp [commandUndefined, State.fmt, hparams, hconstructed]

/-- A command that is not undefined completes (R102, R136). -/
theorem exec_of_defined {i : Instr} {s : State} (h : commandUndefined i s = false) : ∃ t, exec i s = .next t := by
  cases i with
  | advance a b =>
    simp only [exec, execAdvance]
    split <;> exact ⟨_, rfl⟩
  | setstep a b =>
    cases hc : s.constructed with
    | false => exact ⟨_, by simp only [exec, execSetstep, hc]; rfl⟩
    | true =>
      have hfinite : isFinite s.fmt a = true := by simpa [commandUndefined, hc] using h
      exact ⟨_, by simp only [exec, execSetstep, hc, hfinite]; rfl⟩
  | construct a b =>
    obtain ⟨ha, hb⟩ : isFinite s.fmt a = true ∧ isFinite s.fmt b = true := by simpa [commandUndefined] using h
    exact ⟨_, by simp only [exec, execConstruct, ha, hb]; rfl⟩
  | reserved a b => exact ⟨_, rfl⟩


/-- The values of R45: the old PHASE for ADVANCE where it holds one, +0 twice otherwise. -/
def respondedPair (i : Instr) (s : State) : Pair :=
  match i with
  | .advance _ _ => s.phaseVec.getD ⟨posZero, posZero⟩
  | .setstep _ _ => ⟨posZero, posZero⟩
  | .construct _ _ => ⟨posZero, posZero⟩
  | .reserved _ _ => ⟨posZero, posZero⟩

/-- R29: while CONSTRUCTED is 0, PHASE holds no value. -/
theorem State.phaseVec_of_regsHeld {s : State} (hs : s.regsHeld = true) (hc : s.constructed = false) :
    s.phaseVec = none := by
  obtain ⟨-, hphase⟩ := (State.regsHeld_iff s).1 hs
  simpa [hc] using hphase

/-- R29: where STEP or PHASE holds no value, CONSTRUCTED is 0. -/
theorem State.constructed_of_missing {s : State} (hs : s.regsHeld = true)
    (h : s.constructed = false ∨ s.phaseVec = none ∨ s.stepVec = none) : s.constructed = false := by
  obtain ⟨hstep, hphase⟩ := (State.regsHeld_iff s).1 hs
  obtain hc | hp | hw := h
  · exact hc
  · rw [← hphase, hp, Option.isSome_none]
  · rw [← hstep, hw, Option.isSome_none]

theorem exec_responds {i : Instr} {s t : State} (hs : s.regsHeld = true) (h : exec i s = .next t) :
    t.rsps = s.rsps ++ [⟨expectedCode i s.constructed, (respondedPair i s).sin, (respondedPair i s).cos⟩] := by
  cases i with
  | advance a b =>
    obtain ⟨p, w, hc, hp, -, rfl⟩ | ⟨hmissing, rfl⟩ := execAdvance_cases (a := a) (b := b) h
    · simp [expectedCode, respondedPair, hc, hp]
    · have hc := State.constructed_of_missing hs hmissing
      simp [expectedCode, respondedPair, hc, State.phaseVec_of_regsHeld hs hc]
  | setstep a b =>
    obtain ⟨hc, -, rfl⟩ | ⟨hc, rfl⟩ := execSetstep_cases (a := a) (b := b) h <;>
      simp [expectedCode, respondedPair, hc]
  | construct a b =>
    obtain ⟨-, -, rfl⟩ := execConstruct_cases h
    rfl
  | reserved a b =>
    obtain rfl := execReserved_cases (a := a) (b := b) h
    rfl

/-- +0 twice for every command but a successful ADVANCE. -/
theorem respondedPair_eq_zero {i : Instr} {s : State} (hs : s.regsHeld = true)
    (h : (∀ a b, i ≠ .advance a b) ∨ s.constructed = false) : respondedPair i s = ⟨posZero, posZero⟩ := by
  cases i with
  | advance a b =>
    obtain hne | hc := h
    · exact absurd rfl (hne a b)
    · simp [respondedPair, State.phaseVec_of_regsHeld hs hc]
  | setstep a b => rfl
  | construct a b => rfl
  | reserved a b => rfl

/-- Settles O12: a defined command completes, and `exec_responds` says with what. -/
theorem oneResponseOfTheExpectedCode : Obligations.OneResponseOfTheExpectedCode := by
  intro i s hs hdefined
  obtain ⟨t, ht⟩ := exec_of_defined hdefined
  refine ⟨t, _, ht, exec_responds hs ht, rfl, ?_, fun h => ?_⟩
  · rintro a b p rfl hp
    simp [respondedPair, hp]
  · rw [respondedPair_eq_zero hs h]
    exact ⟨rfl, rfl⟩

/-! ### The edge at which a command completes (R50, R102, R170) -/

theorem State.takeResponse_eq {d : Drive} {s : State} (hrst : d.rst = false) :
    s.takeResponse d = { s with
      rsps := if s.rspValid && d.rspReady then s.rsps.tail else s.rsps
      taken := if s.rspValid && d.rspReady then s.taken ++ s.rsps.head?.toList else s.taken } := by
  cases h : s.rspValid && d.rspReady <;> simp [State.takeResponse, rspTransfers, hrst, h, State.popResponse]

/-- Settles O34: consuming the drive changes no output port, so the response handshake is that of `s`. -/
theorem stepRunsTheCommandInFlight : Obligations.StepRunsTheCommandInFlight := by
  intro s c hc hleft hm hrst
  rw [step_eq, clockEdge_of_last (s := s.dropDrive) hm hrst hc hleft, State.landed, State.takeResponse_eq hrst]
  rfl

/-- The operands of a packed word are FLEN bits wide, so the ports sample all of them (R40, R60). -/
theorem sampleCommand_unpackCommand (f : Fmt) (w : BitVec f.packedBits) :
    sampleCommand f (unpackCommand f w) = unpackCommand f w := by
  simp [sampleCommand, unpackCommand, portWord_of_fits, packedLo_fits, packedHi_fits]

theorem eq_decodeFields_of_decode {f : Fmt} {n : Nat} {i : Instr} (h : decode f n = .ok i) :
    i = decodeFields (unpackCommand f (BitVec.ofNat f.packedBits n)) := by
  unfold decode at h
  split at h
  · injection h with h
    exact h.symm
  · cases h

/-- Settles O35: the placed command has one edge left, and the drive placed with it is idle. -/
theorem placedWordIsRun : Obligations.PlacedWordIsRun := by
  intro s nbits w i h
  have hrun := stepRunsTheCommandInFlight (s.withFetchWord nbits w)
    ⟨sampleCommand s.fmt (tableCommand s.fmt nbits w), 1⟩ rfl le_rfl rfl rfl
  rw [hrun, tableCommand, sampleCommand_unpackCommand, ← eq_decodeFields_of_decode h]
  congr 1
  simp [State.withFetchWord, State.placeCommand, State.nextDrive, Drive.idle]

/-! ### The engine apart from its ports (R54, R171) -/

/-- Two states of one engine that differ at most in the command in flight, the reset bit, the host's script, and how
many of the responses the host has taken. -/
structure State.SameEngine (u s : State) : Prop where
  params : u.params = s.params
  constructed : u.constructed = s.constructed
  stepVec : u.stepVec = s.stepVec
  phaseVec : u.phaseVec = s.phaseVec
  nanDraws : u.nanDraws = s.nanDraws
  responses : u.responses = s.responses

theorem State.SameEngine.refl (s : State) : s.SameEngine s := ⟨rfl, rfl, rfl, rfl, rfl, rfl⟩

theorem State.SameEngine.symm {s t : State} (h : s.SameEngine t) : t.SameEngine s :=
  ⟨h.params.symm, h.constructed.symm, h.stepVec.symm, h.phaseVec.symm, h.nanDraws.symm, h.responses.symm⟩

theorem State.SameEngine.trans {s t u : State} (h : s.SameEngine t) (h' : t.SameEngine u) : s.SameEngine u :=
  ⟨h.params.trans h'.params, h.constructed.trans h'.constructed, h.stepVec.trans h'.stepVec,
    h.phaseVec.trans h'.phaseVec, h.nanDraws.trans h'.nanDraws, h.responses.trans h'.responses⟩

theorem State.takeResponse_sameEngine (d : Drive) (s : State) : (s.takeResponse d).SameEngine s :=
  ⟨by simp, by simp, by simp, by simp, by simp, State.takeResponse_responses d s⟩

theorem State.acceptCommand_sameEngine (d : Drive) (s : State) : (s.acceptCommand d).SameEngine s :=
  ⟨by simp, by simp, by simp, by simp, by simp, by simp [State.responses]⟩

theorem State.setInFlight_sameEngine (s : State) (v : Option InFlight) : (s.setInFlight v).SameEngine s :=
  ⟨rfl, rfl, rfl, rfl, rfl, rfl⟩

theorem State.setPrevRst_sameEngine (s : State) (v : Bool) : (s.setPrevRst v).SameEngine s :=
  ⟨rfl, rfl, rfl, rfl, rfl, rfl⟩

theorem State.dropDrive_sameEngine (s : State) : s.dropDrive.SameEngine s := ⟨rfl, rfl, rfl, rfl, rfl, rfl⟩

/-- An edge with nothing in flight moves a command and a response, and no more (R42, R44). -/
theorem State.free_sameEngine (d : Drive) (s : State) :
    (((s.acceptCommand d).takeResponse d).setPrevRst false).SameEngine s :=
  (State.setPrevRst_sameEngine _ false).trans
    ((State.takeResponse_sameEngine d (s.acceptCommand d)).trans (State.acceptCommand_sameEngine d s))

/-- An edge with a command in flight moves a response, and what else it does is left to the command (R170). -/
theorem State.flight_sameEngine (d : Drive) (s : State) (v : Option InFlight) :
    (((s.takeResponse d).setInFlight v).setPrevRst false).SameEngine s :=
  (State.setPrevRst_sameEngine _ false).trans
    ((State.setInFlight_sameEngine _ v).trans (State.takeResponse_sameEngine d s))

theorem State.landed_sameEngine (d : Drive) (s : State) : (s.landed d).SameEngine s :=
  State.flight_sameEngine d s none

/-- A command appends one response, wherever the earlier ones stand (R45). -/
theorem exec_responses {i : Instr} {s t : State} (h : exec i s = .next t) :
    ∃ r, t.responses = s.responses ++ [r] := by
  obtain ⟨-, -, -, -, htaken, r, hrsps⟩ := exec_next h
  exact ⟨r, by rw [State.responses, htaken, hrsps, ← List.append_assoc]; rfl⟩

/-- Two states of one engine run a command alike (R102). -/
theorem exec_sameEngine {i : Instr} {u s t : State} (hus : u.SameEngine s) (h : exec i s = .next t) :
    ∃ v, exec i u = .next v ∧ v.SameEngine t := by
  obtain ⟨v, hv, hconstructed, hstep, hphase, hdraws, r, htr, hvr⟩ :=
    exec_congr hus.params hus.constructed hus.stepVec hus.phaseVec hus.nanDraws h
  obtain ⟨htparams, -, -, -, httaken, -⟩ := exec_next h
  obtain ⟨hvparams, -, -, -, hvtaken, -⟩ := exec_next hv
  have hresponses : u.taken ++ u.rsps = s.taken ++ s.rsps := hus.responses
  refine ⟨v, hv, ?_, hconstructed, hstep, hphase, hdraws, ?_⟩
  · rw [hvparams, htparams, hus.params]
  · rw [State.responses, State.responses, hvtaken, httaken, htr, hvr, ← List.append_assoc, ← List.append_assoc,
      hresponses]

/-- Whether the host takes a response at an edge shows only in where the responses stand. -/
theorem clockEdge_sameEngine_of_rspReady {d d' : Drive} {s t t' : State} (hm' : d'.meetsTiming = d.meetsTiming)
    (hrst' : d'.rst = d.rst) (haccept : s.acceptCommand d' = s.acceptCommand d) (h : clockEdge d s = .next t)
    (h' : clockEdge d' s = .next t') : t.SameEngine t' ∧ t.inFlight = t'.inFlight := by
  obtain ⟨hm, ⟨hrst, rfl⟩ | ⟨hrst, hfree, rfl⟩ | ⟨hrst, c, hc, hleft, hexec⟩ | ⟨hrst, c, hc, hleft, rfl⟩⟩ :=
    clockEdge_cases h
  · rw [clockEdge_of_rst (hm'.trans hm) (hrst'.trans hrst)] at h'
    cases h'
    exact ⟨State.SameEngine.refl _, rfl⟩
  · rw [clockEdge_of_free (hm'.trans hm) (hrst'.trans hrst) hfree] at h'
    cases h'
    exact ⟨(State.free_sameEngine d s).trans (State.free_sameEngine d' s).symm, by simp [haccept]⟩
  · rw [clockEdge_of_last (hm'.trans hm) (hrst'.trans hrst) hc hleft] at h'
    have hlanded := (State.landed_sameEngine d s).trans (State.landed_sameEngine d' s).symm
    obtain ⟨v, hv, hsame⟩ := exec_sameEngine hlanded h'
    cases hexec.symm.trans hv
    obtain ⟨-, hflight, -⟩ := exec_next hexec
    obtain ⟨-, hflight', -⟩ := exec_next h'
    exact ⟨hsame, hflight.trans hflight'.symm⟩
  · rw [clockEdge_of_flying (hm'.trans hm) (hrst'.trans hrst) hc hleft] at h'
    cases h'
    exact ⟨(State.flight_sameEngine d s _).trans (State.flight_sameEngine d' s _).symm, rfl⟩

/-- Settles O43: the two drives agree on all but `rsp_ready`, which the command side does not look at. -/
theorem takingAResponseHasNoSideEffect : Obligations.TakingAResponseHasNoSideEffect := by
  intro s t t' d h h'
  obtain ⟨hsame, hflight⟩ := clockEdge_sameEngine_of_rspReady (d := { d with rspReady := true })
    (d' := { d with rspReady := false }) rfl rfl rfl h h'
  exact ⟨hsame.constructed, hsame.stepVec, hsame.phaseVec, hflight, hsame.nanDraws, hsame.responses⟩

/-- Settles O37: a transfer puts the sampled command in flight, which alone lowers `cmd_ready`. -/
theorem offeredCommandTransfers : Obligations.OfferedCommandTransfers := by
  intro s hm hrst hvalid hready
  obtain ⟨-, hfree, -⟩ := (State.cmdReady_iff s).1 hready
  have htransfer : cmdTransfers s.nextDrive s.dropDrive = true := (cmdTransfers_iff _ _).2 ⟨hrst, hvalid, hready⟩
  have hsame := State.free_sameEngine s.nextDrive s.dropDrive
  have hflight : (((s.dropDrive.acceptCommand s.nextDrive).takeResponse s.nextDrive).setPrevRst false).inFlight =
      some ⟨sampleCommand s.fmt s.nextDrive.cmd, latency s.params s.nextDrive.cmd.op⟩ := by
    simp [State.acceptCommand_of _ _ htransfer]
  exact ⟨_, clockEdge_of_free (s := s.dropDrive) hm hrst hfree, hflight, State.cmdReady_of_inFlight hflight,
    hsame.constructed, hsame.stepVec, hsame.phaseVec, hsame.nanDraws, hsame.responses⟩

/-! ### Runs of edges (R170, R171) -/

theorem runEdges_succ_of_step {s s' : State} (k : Nat) (h : step s = .next s') :
    runEdges (k + 1) s = runEdges k s' := by
  simp [runEdges, h]

/-- A run of one edge more that answers a next state is an edge that does, and a run. -/
theorem runEdges_succ_next {k : Nat} {s t : State} (h : runEdges (k + 1) s = .next t) :
    ∃ s', step s = .next s' ∧ runEdges k s' = .next t := by
  unfold runEdges at h
  split at h
  · next s' hs' => exact ⟨s', hs', h⟩
  · cases h
  · cases h

theorem transferredIn_succ_of_step {s s' : State} (k : Nat) (h : step s = .next s') :
    transferredIn (k + 1) s = s.transferring.toList ++ transferredIn k s' := by
  simp [transferredIn, h]

theorem clockEdge_script {d : Drive} {s t : State} (h : clockEdge d s = .next t) : t.script = s.script := by
  obtain ⟨-, ⟨-, rfl⟩ | ⟨-, -, rfl⟩ | ⟨-, c, -, -, hexec⟩ | ⟨-, c, -, -, rfl⟩⟩ := clockEdge_cases h
  · simp
  · simp
  · obtain ⟨-, -, -, hscript, -⟩ := exec_next hexec
    simpa using hscript
  · simp

/-- After its script the host drives idle, so a quiet script has a quiet next drive even where it is empty. -/
theorem State.nextDrive_of_quietFor {k : Nat} {s : State} (h : s.quietFor (k + 1) = true) :
    s.nextDrive.meetsTiming = true ∧ s.nextDrive.rst = false := by
  cases hscript : s.script with
  | nil => simp [State.nextDrive, hscript, Drive.idle]
  | cons d ds => simp_all [State.quietFor, State.nextDrive]

theorem State.quietFor_of_step {k : Nat} {s t : State} (h : s.quietFor (k + 1) = true) (hstep : step s = .next t) :
    t.quietFor k = true := by
  have hscript : t.script = s.script.tail := clockEdge_script hstep
  cases hs : s.script <;> simp_all [State.quietFor]

/-! ### A command in flight is answered within its remaining edges (R45, R170) -/

theorem step_of_flying {s : State} {c : InFlight} (hm : s.nextDrive.meetsTiming = true) (hrst : s.nextDrive.rst = false)
    (hc : s.inFlight = some c) (hleft : 1 < c.left) :
    ∃ t, step s = .next t ∧ t.inFlight = some { c with left := c.left - 1 } ∧ t.SameEngine s :=
  ⟨_, clockEdge_of_flying (s := s.dropDrive) hm hrst hc hleft, rfl,
    (State.flight_sameEngine s.nextDrive s.dropDrive _).trans (State.dropDrive_sameEngine s)⟩

theorem step_of_last {s : State} {c : InFlight} (hm : s.nextDrive.meetsTiming = true) (hrst : s.nextDrive.rst = false)
    (hc : s.inFlight = some c) (hleft : c.left ≤ 1) (hdefined : commandUndefined c.instr s = false) :
    ∃ t r, step s = .next t ∧ t.inFlight = none ∧ t.responses = s.responses ++ [r] := by
  have hlanded := (State.landed_sameEngine s.nextDrive s.dropDrive).trans (State.dropDrive_sameEngine s)
  obtain ⟨t, ht⟩ :=
    exec_of_defined ((commandUndefined_congr c.instr hlanded.params hlanded.constructed).trans hdefined)
  obtain ⟨-, hflight, -⟩ := exec_next ht
  obtain ⟨r, hr⟩ := exec_responses ht
  exact ⟨t, r, (clockEdge_of_last (s := s.dropDrive) hm hrst hc hleft).trans ht, hflight,
    hr.trans (by rw [hlanded.responses])⟩

/-- The edges left are counted down, and the last of them completes the command. -/
theorem runEdges_answers (n : Nat) {s : State} {c : InFlight} (hc : s.inFlight = some c) (hleft : c.left = n + 1)
    (hquiet : s.quietFor (n + 1) = true) (hdefined : commandUndefined c.instr s = false) :
    ∃ t r, runEdges (n + 1) s = .next t ∧ t.inFlight = none ∧ t.responses = s.responses ++ [r] := by
  induction n generalizing s c with
  | zero =>
    obtain ⟨hm, hrst⟩ := State.nextDrive_of_quietFor hquiet
    obtain ⟨t, r, hstep, hflight, hr⟩ := step_of_last hm hrst hc hleft.le hdefined
    exact ⟨t, r, runEdges_succ_of_step 0 hstep, hflight, hr⟩
  | succ n ih =>
    obtain ⟨hm, hrst⟩ := State.nextDrive_of_quietFor hquiet
    obtain ⟨s', hstep, hflight, hsame⟩ := step_of_flying hm hrst hc (by omega)
    have hdefined' : commandUndefined c.instr s' = false :=
      (commandUndefined_congr _ hsame.params hsame.constructed).trans hdefined
    obtain ⟨t, r, hrun, htflight, hr⟩ :=
      ih hflight (by simp [hleft]) (State.quietFor_of_step hquiet hstep) hdefined'
    exact ⟨t, r, (runEdges_succ_of_step _ hstep).trans hrun, htflight, hr.trans (by rw [hsame.responses])⟩

/-- Settles O59. -/
theorem transferredCommandIsAnsweredInTime : Obligations.TransferredCommandIsAnsweredInTime := by
  intro s c hc hleft hquiet hdefined
  obtain ⟨n, hn⟩ := Nat.exists_eq_add_of_le' hleft
  rw [hn] at hquiet ⊢
  exact runEdges_answers n hc hn hquiet hdefined

/-! ### Any run of edges as the atomic commands that transferred (R47, R102, R171) -/

/-- The command that has transferred and not yet completed. -/
def State.pending (s : State) : List Instr := (s.inFlight.map InFlight.instr).toList

theorem State.pending_of_free {s : State} (h : s.inFlight = none) : s.pending = [] := by simp [State.pending, h]

theorem State.pending_of_inFlight {s : State} {c : InFlight} (h : s.inFlight = some c) : s.pending = [c.instr] := by
  simp [State.pending, h]

theorem State.transferring_of_inFlight {s : State} {c : InFlight} (hc : s.inFlight = some c) :
    s.transferring = none := by
  simp [State.transferring, cmdTransfers_of_not_ready (State.cmdReady_of_inFlight hc)]

/-- With nothing in flight, what transfers at an edge is what is pending after it. -/
theorem State.pending_acceptCommand {s : State} (hfree : s.inFlight = none) :
    (s.dropDrive.acceptCommand s.nextDrive).pending = s.transferring.toList := by
  have hsame : cmdTransfers s.nextDrive s.dropDrive = cmdTransfers s.nextDrive s := rfl
  cases h : cmdTransfers s.nextDrive s
  · rw [State.acceptCommand_of_not _ _ (hsame.trans h), State.pending_of_free (s := s.dropDrive) hfree]
    simp [State.transferring, h]
  · rw [State.acceptCommand_of _ _ (hsame.trans h)]
    simp [State.transferring, h, State.pending, InFlight.instr]

/-- What a step without reset does to the engine and to the command pending: it puts the transferring command in
flight, or runs the command in flight, or leaves it there. -/
theorem step_cases {s t : State} (hrst : s.nextDrive.rst = false) (h : step s = .next t) :
    (s.pending = [] ∧ t.pending = s.transferring.toList ∧ t.SameEngine s) ∨
    (∃ i m, s.pending = [i] ∧ s.transferring = none ∧ t.pending = [] ∧ m.SameEngine s ∧ exec i m = .next t) ∨
    (s.transferring = none ∧ t.pending = s.pending ∧ t.SameEngine s) := by
  have hdrop := State.dropDrive_sameEngine s
  obtain ⟨-, ⟨hrst', -⟩ | ⟨-, hfree, rfl⟩ | ⟨-, c, hc, -, hexec⟩ | ⟨-, c, hc, -, rfl⟩⟩ := clockEdge_cases h
  · simp [hrst] at hrst'
  · refine .inl ⟨State.pending_of_free hfree, ?_, (State.free_sameEngine s.nextDrive s.dropDrive).trans hdrop⟩
    rw [← State.pending_acceptCommand (s := s) hfree]
    simp [State.pending]
  · obtain ⟨-, hflight, -⟩ := exec_next hexec
    exact .inr (.inl ⟨c.instr, _, State.pending_of_inFlight hc, State.transferring_of_inFlight hc,
      State.pending_of_free hflight, (State.landed_sameEngine s.nextDrive s.dropDrive).trans hdrop, hexec⟩)
  · exact .inr (.inr ⟨State.transferring_of_inFlight hc, (State.pending_of_inFlight hc).symm,
      (State.flight_sameEngine s.nextDrive s.dropDrive _).trans hdrop⟩)

theorem execAll_cons_of_exec {i : Instr} {s t : State} (is : List Instr) (h : exec i s = .next t) :
    execAll (i :: is) s = execAll is t := by
  simp [execAll, h]

/-- One edge without reset: what was pending or transfers at it has been executed or is pending after it, in that
order, whatever commands follow. -/
theorem step_refines {s t u : State} (hrst : s.nextDrive.rst = false) (h : step s = .next t) (hus : u.SameEngine s) :
    ∃ v, v.SameEngine t ∧
      ∀ is, execAll (s.pending ++ (s.transferring.toList ++ is)) u = execAll (t.pending ++ is) v := by
  obtain ⟨hs, ht, hsame⟩ | ⟨i, m, hs, htransfer, ht, hms, hexec⟩ | ⟨htransfer, ht, hsame⟩ := step_cases hrst h
  · exact ⟨u, hus.trans hsame.symm, fun is => by rw [hs, ht, List.nil_append]⟩
  · obtain ⟨v, hv, hvt⟩ := exec_sameEngine (hus.trans hms.symm) hexec
    refine ⟨v, hvt, fun is => ?_⟩
    rw [hs, htransfer, ht]
    exact execAll_cons_of_exec is hv
  · exact ⟨u, hus.trans hsame.symm, fun is => by rw [htransfer, ht]; rfl⟩

/-- The simulation: a run of edges does to the engine what the command pending before it and the commands that
transfer in it do one after another. -/
theorem runEdges_refines {k : Nat} {s t u : State} (hquiet : s.quietFor k = true) (hdone : t.inFlight = none)
    (h : runEdges k s = .next t) (hus : u.SameEngine s) :
    ∃ v, execAll (s.pending ++ transferredIn k s) u = .next v ∧ v.SameEngine t := by
  induction k generalizing s u with
  | zero =>
    cases h
    exact ⟨u, by rw [State.pending_of_free hdone]; rfl, hus⟩
  | succ k ih =>
    obtain ⟨-, hrst⟩ := State.nextDrive_of_quietFor hquiet
    obtain ⟨s', hstep, hrun⟩ := runEdges_succ_next h
    obtain ⟨v, hvs', hcommands⟩ := step_refines hrst hstep hus
    rw [transferredIn_succ_of_step k hstep, hcommands]
    exact ih (State.quietFor_of_step hquiet hstep) hrun hvs'

/-- Settles O58: the simulation from a state with nothing pending, starting the atomic commands in that state. -/
theorem edgesRefineAtomicCommands : Obligations.EdgesRefineAtomicCommands := by
  intro k s t hquiet hfree hdone hrun
  obtain ⟨u, hexec, hsame⟩ := runEdges_refines hquiet hdone hrun (State.SameEngine.refl s)
  rw [State.pending_of_free hfree, List.nil_append] at hexec
  exact ⟨u, hexec, hsame.constructed, hsame.stepVec, hsame.phaseVec, hsame.nanDraws, hsame.responses⟩

end Sys2Proof.Machine
end

section
/-! PROOFS. The encoding statements (30_encoding.md): packing and reading back the three fields of a packed word, the
decoders and encoders of commands (O1, O2, O3, O4) and responses (O5), the assembly lines of R70 (O6), and the fields
that no meaning reads (O15). -/

namespace Sys2Proof.Machine

/-! ### The three fields of a packed word, written and read (R60, R62) -/

@[simp] theorem packedLow2_packWord (f : Fmt) (low2 : BitVec 2) (lo hi : Word) :
    packedLow2 f (packWord f low2 lo hi) = low2 :=
  BitVec.extractLsb'_append_eq_right

@[simp] theorem packedLo_packWord (f : Fmt) (low2 : BitVec 2) (lo hi : Word) :
    packedLo f (packWord f low2 lo hi) = portWord f lo := by
  rw [packedLo, packWord, BitVec.extractLsb'_append_eq_of_le le_rfl, Nat.sub_self,
    BitVec.extractLsb'_append_eq_right, portWord]

@[simp] theorem packedHi_packWord (f : Fmt) (low2 : BitVec 2) (lo hi : Word) :
    packedHi f (packWord f low2 lo hi) = portWord f hi := by
  rw [packedHi, packWord, BitVec.extractLsb'_append_eq_of_le (Nat.le_add_left 2 _), Nat.add_sub_cancel,
    BitVec.extractLsb'_append_eq_left, portWord]

theorem flen_le (f : Fmt) : f.flen ≤ 64 := by cases f <;> decide

/-- A field of FLEN bits keeps its bits in a `Word`. -/
theorem setWidth_flen_setWidth (f : Fmt) (x : BitVec f.flen) : (x.setWidth 64).setWidth f.flen = x := by
  rw [BitVec.setWidth_setWidth_of_le _ (flen_le f), BitVec.setWidth_eq]

/-- The three fields are the whole packed word. -/
theorem packWord_fields (f : Fmt) (w : BitVec f.packedBits) :
    packWord f (packedLow2 f w) (packedLo f w) (packedHi f w) = w := by
  rw [packWord, packedLow2, packedLo, packedHi, setWidth_flen_setWidth, setWidth_flen_setWidth,
    BitVec.extractLsb'_append_extractLsb'_eq_extractLsb' (Nat.add_comm f.flen 2),
    BitVec.extractLsb'_append_extractLsb']

/-! ### A command and its opcode and fields (R61) -/

theorem decodeFields_fields (i : Instr) : decodeFields ⟨i.opcode, i.fieldA, i.fieldB⟩ = i := by
  cases i with
  | advance a b => exact Laws.FieldsDecode.advance a b
  | setstep a b => exact Laws.FieldsDecode.setstep a b
  | construct a b => exact Laws.FieldsDecode.construct a b
  | reserved a b => exact Laws.FieldsDecode.reserved a b

theorem op_cases (op : BitVec 2) : op = 0b00#2 ∨ op = 0b01#2 ∨ op = 0b10#2 ∨ op = 0b11#2 := by
  revert op
  decide

/-- Settles O3: one row per value of op, and two bits have four values. -/
theorem opcodeSelectsCommand : Obligations.OpcodeSelectsCommand :=
  ⟨fun _ _ => rfl, fun _ _ => rfl, fun _ _ => rfl, fun _ _ => rfl, op_cases⟩

/-- No command loses a bit of a transfer: its opcode and fields are those it was decoded from. -/
theorem fields_decodeFields (c : Command) :
    (decodeFields c).opcode = c.op ∧ (decodeFields c).fieldA = c.a ∧ (decodeFields c).fieldB = c.b := by
  obtain ⟨op, a, b⟩ := c
  obtain rfl | rfl | rfl | rfl := op_cases op <;> exact ⟨rfl, rfl, rfl⟩

theorem wellFormed_iff (f : Fmt) (i : Instr) :
    i.wellFormed f = true ↔ Word.fits f i.fieldA = true ∧ Word.fits f i.fieldB = true := by
  cases i <;> exact Bool.and_eq_true_iff

/-! ### Decoding and encoding a command (R60, R61, R67) -/

theorem decode_toNat (f : Fmt) (w : BitVec f.packedBits) :
    decode f w.toNat = .ok (decodeFields (unpackCommand f w)) := by
  rw [decode, if_pos w.isLt, BitVec.ofNat_toNat, BitVec.setWidth_eq]

theorem unpackCommand_encode {f : Fmt} {i : Instr} (hi : i.wellFormed f = true) :
    unpackCommand f (encode f i) = ⟨i.opcode, i.fieldA, i.fieldB⟩ := by
  obtain ⟨ha, hb⟩ := (wellFormed_iff f i).1 hi
  simp [unpackCommand, encode, portWord_of_fits, ha, hb]

theorem wellFormed_decodeFields_unpackCommand (f : Fmt) (w : BitVec f.packedBits) :
    (decodeFields (unpackCommand f w)).wellFormed f = true := by
  obtain ⟨-, ha, hb⟩ := fields_decodeFields (unpackCommand f w)
  rw [wellFormed_iff, ha, hb]
  exact ⟨packedLo_fits f w, packedHi_fits f w⟩

theorem encode_decodeFields_unpackCommand (f : Fmt) (w : BitVec f.packedBits) :
    encode f (decodeFields (unpackCommand f w)) = w := by
  obtain ⟨hop, ha, hb⟩ := fields_decodeFields (unpackCommand f w)
  rw [encode, hop, ha, hb]
  exact packWord_fields f w

/-- Settles O1: the three fields of the packed word are those of the command, and they name it. -/
theorem decodeEncodeRoundTrip : Obligations.DecodeEncodeRoundTrip := by
  intro f i hi
  rw [decode_toNat, unpackCommand_encode hi, decodeFields_fields]

/-- Settles O2: a number in range is the packed word with its bits, and the decoder checks the range first. -/
theorem encodeDecodeRoundTrip : Obligations.EncodeDecodeRoundTrip := by
  refine fun f n => ⟨fun hn => ?_, fun hn => if_neg (Nat.not_lt.mpr hn)⟩
  obtain ⟨w, rfl⟩ : ∃ w : BitVec f.packedBits, w.toNat = n := ⟨BitVec.ofNat _ n, Nat.mod_eq_of_lt hn⟩
  exact ⟨_, decode_toNat f w, wellFormed_decodeFields_unpackCommand f w,
    congrArg BitVec.toNat (encode_decodeFields_unpackCommand f w)⟩

/-! ### Decoding and encoding a response (R62, R130) -/

theorem rspCode_ofBits_bits (c : RspCode) : RspCode.ofBits c.bits = some c := by cases c <;> rfl

theorem decodeResponse_of_code {f : Fmt} {w : BitVec f.packedBits} {c : RspCode}
    (hc : RspCode.ofBits (packedLow2 f w) = some c) :
    decodeResponse f w.toNat = .ok ⟨c, packedLo f w, packedHi f w⟩ := by
  simp only [decodeResponse, if_pos w.isLt, BitVec.ofNat_toNat, BitVec.setWidth_eq, hc]

theorem decodeResponse_of_no_code {f : Fmt} {w : BitVec f.packedBits}
    (hc : RspCode.ofBits (packedLow2 f w) = none) :
    decodeResponse f w.toNat = .error .reservedResponseCode := by
  simp only [decodeResponse, if_pos w.isLt, BitVec.ofNat_toNat, BitVec.setWidth_eq, hc]

theorem decodeResponse_encodeResponse {f : Fmt} {r : Response} (hr : r.fits f = true) :
    decodeResponse f (encodeResponse f r).toNat = .ok r := by
  obtain ⟨hsin, hcos⟩ := Bool.and_eq_true_iff.1 hr
  have hcode : RspCode.ofBits (packedLow2 f (encodeResponse f r)) = some r.code := by
    rw [encodeResponse, packedLow2_packWord, rspCode_ofBits_bits]
  rw [decodeResponse_of_code hcode, encodeResponse, packedLo_packWord, packedHi_packWord,
    portWord_of_fits f _ hsin, portWord_of_fits f _ hcos]

/-- Settles O5: the code and the two data fields are read back, and 0b11 is the bits of no code. -/
theorem responseRoundTrip : Obligations.ResponseRoundTrip := fun f =>
  ⟨fun _ hr => decodeResponse_encodeResponse hr,
    fun lo hi => decodeResponse_of_no_code (by rw [packedLow2_packWord]; rfl)⟩

/-! ### The table of R70: its packed words, and its lines, whose decimal literals round exactly (R68) -/

/-- Settles O4: each row is a closed fact, which the decoder computes. -/
theorem specWordsDecode : Obligations.SpecWordsDecode :=
  ⟨rfl, rfl, rfl, rfl, rfl, rfl, rfl, rfl⟩

/-- The literal `0.0` in either format. -/
theorem decimalWord_zero (f : Fmt) : decimalWord f false 0 0 1 = posZero := by
  have h := roundMag_exact f 0 10 (by decide) (Nat.zero_le _)
  have hmag : magOfLow f.fracBits 0 = 0 := by simp [magOfLow]
  rw [hmag, Nat.zero_mul] at h
  rw [decimalWord, Nat.zero_mul, Nat.zero_mul, Nat.pow_one, h]
  rfl

/-- The bits of 1.0 encode 2^unitExp multiples of the smallest subnormal, which is the value 1. -/
theorem magOfLow_one (f : Fmt) : magOfLow f.fracBits (bias f * 2 ^ f.fracBits) = 2 ^ unitExp f := by
  have hbias : 0 < bias f := by cases f <;> decide
  have hexp : f.fracBits + (bias f - 1) = unitExp f := by rw [unitExp]; omega
  rw [magOfLow, Nat.mul_div_cancel _ (Nat.two_pow_pos _), Nat.mul_mod_left, if_neg hbias.ne', Nat.add_zero,
    ← Nat.pow_add, hexp]

/-- The literal `1.0` in either format: ten tenths round to the encoding of 1. -/
theorem decimalWord_one (f : Fmt) : decimalWord f false 10 0 1 = one f := by
  have h := roundMag_exact f (bias f * 2 ^ f.fracBits) 10 (by decide) (by cases f <;> decide)
  rw [magOfLow_one] at h
  rw [decimalWord, one, ← h]
  simp [Nat.mul_comm]

theorem assembleLine_construct : assembleLine .binary64 "CONSTRUCT 0.0, 0x3FF921FB54442D18" =
    .ok (.command (.construct (decimalWord .binary64 false 0 0 1) 0x3FF921FB54442D18)) := rfl

theorem assembleLine_setstep (f : Fmt) : assembleLine f "SETSTEP 1.0" =
    .ok (.command (.setstep (decimalWord f false 10 0 1) posZero)) := rfl

/-- Settles O6: each line is read as its command, its decimal literal is exact in the format, and the packed word is
that of the table. -/
theorem specLinesAssemble : Obligations.SpecLinesAssemble := by
  refine ⟨⟨_, assembleLine_construct, ?_⟩, ⟨_, assembleLine_setstep .binary64, ?_⟩,
    ⟨_, rfl, rfl⟩, ⟨_, rfl, rfl⟩⟩
  · rw [decimalWord_zero]; rfl
  · rw [decimalWord_one]; rfl

/-! ### The fields that no meaning reads (R64) -/

/-- Settles O15: the meanings name their ignored operands and use them nowhere, so the outcomes are the same term. -/
theorem ignoredFieldsAreNotRead : Obligations.IgnoredFieldsAreNotRead :=
  fun _ _ _ _ _ => ⟨rfl, rfl, rfl⟩

end Sys2Proof.Machine
end

section
/-! PROOFS. The command statements (40_commands.md): what each command does as an equation (O7 to O10), CONSTRUCT from
any earlier state (O16), and sequences of commands (O18, O19, O20). -/

namespace Sys2Proof.Machine

/-! ### Each command as an equation, one lemma per row of R102 -/

/-- The engine after CONSTRUCT with finite angles (R82). -/
def State.afterConstruct (s : State) (theta0 omega : Word) : State :=
  (((s.writeStep (sinCos s.fmt (portWord s.fmt omega))).writePhase
    (sinCos s.fmt (portWord s.fmt theta0))).setConstructed true).respondZero .ok

theorem exec_construct_of_finite {s : State} {theta0 omega : Word} (htheta : isFinite s.fmt theta0 = true)
    (homega : isFinite s.fmt omega = true) :
    exec (.construct theta0 omega) s = .next (s.afterConstruct theta0 omega) := by
  simp [exec, execConstruct, State.afterConstruct, htheta, homega]

theorem exec_construct_of_not_finite {s : State} {theta0 omega : Word}
    (h : isFinite s.fmt theta0 = false ∨ isFinite s.fmt omega = false) :
    exec (.construct theta0 omega) s = .fault .undefinedOperand :=
  if_pos h

theorem exec_setstep_of_finite {s : State} {omega : Word} (b : Word) (hc : s.constructed = true)
    (homega : isFinite s.fmt omega = true) :
    exec (.setstep omega b) s = .next ((s.writeStep (sinCos s.fmt (portWord s.fmt omega))).respondZero .ok) := by
  simp [exec, execSetstep, hc, homega]

theorem exec_setstep_of_not_constructed {s : State} (omega b : Word) (hc : s.constructed = false) :
    exec (.setstep omega b) s = .next (s.respondZero .notConstructed) :=
  if_pos hc

theorem exec_setstep_of_not_finite {s : State} {omega : Word} (b : Word) (hc : s.constructed = true)
    (homega : isFinite s.fmt omega = false) : exec (.setstep omega b) s = .fault .undefinedOperand := by
  simp [exec, execSetstep, hc, homega, faultUndefinedOperand]

theorem exec_advance_of_held {s : State} {p w : Pair} (a b : Word) (hc : s.constructed = true)
    (hp : s.phaseVec = some p) (hw : s.stepVec = some w) :
    exec (.advance a b) s =
      .next (((s.writePhase (rotate s.fmt s.nanDraws p w)).advanceDraws).respond .ok p.sin p.cos) := by
  simp [exec, execAdvance, hc, hp, hw]

theorem exec_advance_of_not_constructed {s : State} (a b : Word) (hc : s.constructed = false) :
    exec (.advance a b) s = .next (s.respondZero .notConstructed) := by
  simp [exec, execAdvance, hc, raiseError]

/-- Settles O7: the two equations of CONSTRUCT; a word that fits crosses the port unchanged. -/
theorem constructLoadsBothPairs : Obligations.ConstructLoadsBothPairs := by
  refine fun s theta0 omega => ⟨fun hfit hfit' htheta homega => ?_, exec_construct_of_not_finite⟩
  rw [exec_construct_of_finite htheta homega, State.afterConstruct, portWord_of_fits _ _ hfit,
    portWord_of_fits _ _ hfit']
  rfl

/-- Settles O8: the three equations of SETSTEP. -/
theorem setstepRewritesStepOnly : Obligations.SetstepRewritesStepOnly := by
  refine fun s omega b =>
    ⟨fun hc hfit homega => ?_, exec_setstep_of_not_constructed omega b, exec_setstep_of_not_finite b⟩
  rw [exec_setstep_of_finite b hc homega, portWord_of_fits _ _ hfit]
  rfl

/-- Settles O9: the two equations of ADVANCE; the draws start at the counter, which goes up by those of one Rotate. -/
theorem advanceReturnsThenRotates : Obligations.AdvanceReturnsThenRotates := fun s a b =>
  ⟨fun _ _ hc hp hw => ⟨s.nanDraws, s.nanDraws + drawsPerRotate, exec_advance_of_held a b hc hp hw⟩,
    exec_advance_of_not_constructed a b⟩

/-- Settles O10: the meaning of the reserved opcode reads nothing and only responds. -/
theorem reservedAnswersIllegalCmd : Obligations.ReservedAnswersIllegalCmd := fun _ _ _ => rfl

/-- Settles O16: CONSTRUCT writes STEP, PHASE and CONSTRUCTED from its operands and the format alone. -/
theorem constructForgetsTheOldState : Obligations.ConstructForgetsTheOldState := by
  intro s s' theta0 omega hparams htheta homega
  have hfmt : s'.fmt = s.fmt := by simp [State.fmt, hparams]
  refine ⟨_, _, exec_construct_of_finite htheta homega, exec_construct_of_finite (s := s') ?_ ?_, ?_⟩ <;>
    simp [State.afterConstruct, hfmt, htheta, homega]

/-! ### Commands one after another (R47, R102) -/

theorem execAll_append_of_next {is : List Instr} {s t : State} (js : List Instr) (h : execAll is s = .next t) :
    execAll (is ++ js) s = execAll js t := by
  induction is generalizing s with
  | nil => cases h; rfl
  | cons i is ih =>
    cases hi : exec i s with
    | next u =>
      rw [execAll_cons_of_exec is hi] at h
      rw [List.cons_append, execAll_cons_of_exec _ hi, ih h]
    | fault r => simp [execAll, hi] at h
    | refused r => simp [execAll, hi] at h

theorem execAll_singleton (i : Instr) (s : State) : execAll [i] s = exec i s := by
  cases h : exec i s <;> simp [execAll, h]

/-! ### A run of SETSTEPs keeps PHASE (R23, R88) -/

/-- SETSTEPs with finite angles complete on a constructed engine; only which value STEP holds depends on them. -/
theorem execAll_setsteps {s : State} {w : Pair} (ws : List (Word × Word)) (hc : s.constructed = true)
    (hw : s.stepVec = some w) (hfinite : ∀ x ∈ ws, isFinite s.fmt x.1 = true) :
    ∃ t w', execAll (ws.map fun x => Instr.setstep x.1 x.2) s = .next t ∧ t.constructed = true ∧
      t.stepVec = some w' ∧ t.phaseVec = s.phaseVec := by
  induction ws generalizing s w with
  | nil => exact ⟨s, w, rfl, hc, hw, rfl⟩
  | cons x ws ih =>
    obtain ⟨hx, hws⟩ := List.forall_mem_cons.1 hfinite
    rw [List.map_cons, execAll_cons_of_exec _ (exec_setstep_of_finite x.2 hc hx)]
    exact ih hc rfl hws

/-- Settles O18: CONSTRUCT loads PHASE, the SETSTEPs keep it, and ADVANCE responds it. -/
theorem firstSampleIsTheConstructedPhase : Obligations.FirstSampleIsTheConstructedPhase := by
  intro s theta0 omega a b ws htheta homega hws
  rw [execAll_cons_of_exec _ (exec_construct_of_finite htheta homega)]
  obtain ⟨t, w, hrun, hc, hw, hp⟩ := execAll_setsteps (s := s.afterConstruct theta0 omega) ws rfl rfl hws
  refine ⟨_, (execAll_append_of_next _ hrun).trans
    ((execAll_singleton _ _).trans (exec_advance_of_held a b hc hp hw)), ?_⟩
  simp

/-! ### A run of ADVANCEs iterates Rotate (R95) -/

/-- The response that carries the pair `p`. -/
def okResponse (p : Pair) : Response := ⟨.ok, p.sin, p.cos⟩

/-- The state `n` ADVANCEs after `s`, which holds the phase `p` and the step `w`: the first `n` phases of R95 have been
responded and PHASE is the next one. -/
def State.afterAdvances (s : State) (p w : Pair) (n : Nat) : State := { s with
  phaseVec := some (iterRotate s.fmt s.nanDraws w p n)
  nanDraws := s.nanDraws + drawsPerRotate * n
  rsps := s.rsps ++ (List.range n).map fun k => okResponse (iterRotate s.fmt s.nanDraws w p k) }

theorem State.afterAdvances_zero {s : State} {p : Pair} (w : Pair) (hp : s.phaseVec = some p) :
    s.afterAdvances p w 0 = s := by
  simp [State.afterAdvances, iterRotate, ← hp]

/-- The next ADVANCE takes the engine from the state after `n` of them to the state after `n + 1`. -/
theorem exec_advance_afterAdvances {s : State} {p w : Pair} (a b : Word) (n : Nat) (hc : s.constructed = true)
    (hw : s.stepVec = some w) :
    exec (.advance a b) (s.afterAdvances p w n) = .next (s.afterAdvances p w (n + 1)) := by
  rw [exec_advance_of_held (s := s.afterAdvances p w n) a b hc rfl hw]
  simp [State.afterAdvances, State.writePhase, State.advanceDraws, State.respond, State.fmt, iterRotate, okResponse,
    List.range_succ, Nat.mul_succ, Nat.add_assoc]

theorem execAll_advances {s : State} {p w : Pair} (fields : List (Word × Word)) (hc : s.constructed = true)
    (hp : s.phaseVec = some p) (hw : s.stepVec = some w) :
    execAll (fields.map fun x => Instr.advance x.1 x.2) s = .next (s.afterAdvances p w fields.length) := by
  induction fields using List.reverseRecOn with
  | nil => rw [List.length_nil, State.afterAdvances_zero w hp]; rfl
  | append_singleton xs x ih =>
    rw [List.map_append, execAll_append_of_next _ ih, List.length_append]
    exact (execAll_singleton _ _).trans (exec_advance_afterAdvances x.1 x.2 xs.length hc hw)

/-- Settles O19: SETSTEP leaves PHASE, and of the two ADVANCEs the first responds it and the second its rotation. -/
theorem setstepActsFromTheSecondSample : Obligations.SetstepActsFromTheSecondSample := by
  intro s p omega b a1 b1 a2 b2 hc hp homega
  rw [execAll_cons_of_exec _ (exec_setstep_of_finite b hc homega)]
  refine ⟨_, execAll_advances [(a1, b1), (a2, b2)] hc hp rfl, ?_⟩
  simp [State.afterAdvances, okResponse, iterRotate, List.range_succ]

/-- Settles O20: after CONSTRUCT the phase is P_0 and the step SinCos(omega), and `execAll_advances` gives the rest. -/
theorem advanceSequenceIteratesRotate : Obligations.AdvanceSequenceIteratesRotate := by
  intro s theta0 omega a b n htheta homega
  rw [execAll_cons_of_exec _ (exec_construct_of_finite htheta homega)]
  have hrun := execAll_advances (s := s.afterConstruct theta0 omega) (List.replicate n (a, b)) rfl rfl rfl
  rw [List.map_replicate, List.length_replicate] at hrun
  exact ⟨_, hrun, rfl, by simp [State.afterAdvances, State.afterConstruct, okResponse]⟩

end Sys2Proof.Machine
end

section
/-! PROOFS. The statements on ADVANCE that rest on the datapath (40_commands.md R96, R98): the draws change nothing but
the encoding of a NaN (O17), and the rotation by the unit step (O21). -/

namespace Sys2Proof.Machine

/-! ### The draws decide nothing but NaN encodings (R112) -/

theorem sameValue.refl (f : Fmt) (x : Word) : sameValue f x x := .inl rfl

theorem isNaN_drawnNaN (f : Fmt) (d : Nat) : isNaN f (drawnNaN f d) = true := isNaN_nanOf f _

theorem sameValue_drawnNaN (f : Fmt) (d d' : Nat) : sameValue f (drawnNaN f d) (drawnNaN f d') :=
  .inr ⟨isNaN_drawnNaN f d, isNaN_drawnNaN f d'⟩

theorem isNaN_flipSign (f : Fmt) (w : Word) : isNaN f (flipSign f w) = isNaN f w := by
  have hlow : w.toNat % 2 ^ (f.flen - 1) < 2 ^ (f.flen - 1) := lowBits_lt f w
  rw [isNaN, isNaN, flipSign, expField_withSign f _ _ hlow, fracField_withSign f _ _ hlow, expField_eq, fracField_eq]
  rfl

theorem sameValue.flipSign {f : Fmt} {x y : Word} (h : sameValue f x y) :
    sameValue f (flipSign f x) (flipSign f y) := by
  obtain rfl | ⟨hx, hy⟩ := h
  · exact sameValue.refl f _
  · exact .inr ⟨by rwa [isNaN_flipSign], by rwa [isNaN_flipSign]⟩

theorem fadd_of_isNaN {f : Fmt} {x y : Word} (d : Nat) (h : isNaN f x = true ∨ isNaN f y = true) :
    fadd f d x y = drawnNaN f d :=
  if_pos (by simpa using h)

theorem fmul_sameValue (f : Fmt) (d d' : Nat) (x y : Word) : sameValue f (fmul f d x y) (fmul f d' x y) := by
  unfold fmul
  split
  · exact sameValue_drawnNaN f d d'
  split
  · exact sameValue_drawnNaN f d d'
  · exact sameValue.refl f _

theorem fadd_sameValue_draws (f : Fmt) (d d' : Nat) (x y : Word) : sameValue f (fadd f d x y) (fadd f d' x y) := by
  unfold fadd
  split
  · exact sameValue_drawnNaN f d d'
  split
  · exact sameValue_drawnNaN f d d'
  · exact sameValue.refl f _

theorem fadd_sameValue {f : Fmt} {x x' y y' : Word} (d d' : Nat) (hx : sameValue f x x') (hy : sameValue f y y') :
    sameValue f (fadd f d x y) (fadd f d' x' y') := by
  obtain rfl | ⟨hx, hx'⟩ := hx
  · obtain rfl | ⟨hy, hy'⟩ := hy
    · exact fadd_sameValue_draws f d d' x y
    · rw [fadd_of_isNaN d (.inr hy), fadd_of_isNaN d' (.inr hy')]
      exact sameValue_drawnNaN f d d'
  · rw [fadd_of_isNaN d (.inl hx), fadd_of_isNaN d' (.inl hx')]
    exact sameValue_drawnNaN f d d'

theorem rotate_sameValue (f : Fmt) (d d' : Nat) (p w : Pair) : Pair.sameValue f (rotate f d p w) (rotate f d' p w) :=
  ⟨fadd_sameValue _ _ (fmul_sameValue f _ _ _ _) (fmul_sameValue f _ _ _ _),
    fadd_sameValue _ _ (fmul_sameValue f _ _ _ _) (fmul_sameValue f _ _ _ _).flipSign⟩

/-- Settles O17: both engines respond the one phase and rotate it by the one step, each with draws of its own. -/
theorem advanceDependsOnRegistersOnly : Obligations.AdvanceDependsOnRegistersOnly := by
  intro s s' p w a b a' b' hfmt hc hc' hp hp' hw hw'
  refine ⟨_, _, _, _, exec_advance_of_held a b hc hp hw, exec_advance_of_held a' b' hc' hp' hw', rfl, rfl, rfl, rfl,
    ?_⟩
  rw [hfmt]
  exact rotate_sameValue s.fmt _ _ p w

/-! ### Finite operands take the last branch of FMul and FAdd (R110, R111) -/

theorem isFinite_iff_not_isNaN_not_isInf (f : Fmt) (x : Word) :
    isFinite f x = true ↔ isNaN f x = false ∧ isInf f x = false := by
  simp [isFinite_eq]

theorem fmul_of_isFinite {f : Fmt} {x y : Word} (d : Nat) (hx : isFinite f x = true) (hy : isFinite f y = true) :
    fmul f d x y =
      withSign f (signBit f x != signBit f y) (roundMag f (mag f x * mag f y) (2 ^ unitExp f)) := by
  obtain ⟨hnanx, hinfx⟩ := (isFinite_iff_not_isNaN_not_isInf f x).1 hx
  obtain ⟨hnany, hinfy⟩ := (isFinite_iff_not_isNaN_not_isInf f y).1 hy
  simp [fmul, hnanx, hnany, hinfx, hinfy]

theorem fadd_of_isFinite {f : Fmt} {x y : Word} (d : Nat) (hx : isFinite f x = true) (hy : isFinite f y = true) :
    fadd f d x y = if units f x + units f y = 0 then withSign f (signBit f x && signBit f y) 0
      else withSign f (decide (units f x + units f y < 0)) (roundMag f (units f x + units f y).natAbs 1) := by
  obtain ⟨hnanx, hinfx⟩ := (isFinite_iff_not_isNaN_not_isInf f x).1 hx
  obtain ⟨hnany, hinfy⟩ := (isFinite_iff_not_isNaN_not_isInf f y).1 hy
  simp [fadd, hnanx, hnany, hinfx, hinfy]

/-! ### Magnitudes and signs -/

theorem magOfLow_zero (p : Nat) : magOfLow p 0 = 0 := by simp [magOfLow]

theorem mag_eq_zero_iff (f : Fmt) (x : Word) : mag f x = 0 ↔ lowBits f x = 0 := by
  rw [mag_eq]
  exact (magOfLow_strictMono f.fracBits).injective.eq_iff' (magOfLow_zero _)

theorem roundMag_zero (f : Fmt) : roundMag f 0 (2 ^ unitExp f) = 0 := by
  have h := roundMag_exact f 0 _ (Nat.two_pow_pos (unitExp f)) (Nat.zero_le _)
  rwa [magOfLow_zero, Nat.zero_mul] at h

/-- The magnitude of a finite datum, scaled by any denominator, rounds to the datum's own lower bits. -/
theorem roundMag_mag {f : Fmt} {x : Word} (hx : isFinite f x = true) {den : Nat} (hd : 0 < den) :
    roundMag f (mag f x * den) den = lowBits f x := by
  rw [mag_eq]
  exact roundMag_exact f _ _ hd ((isFinite_iff f x).1 hx).le

theorem units_natAbs (f : Fmt) (x : Word) : (units f x).natAbs = mag f x := by
  unfold units
  split <;> simp

theorem decide_units_neg {f : Fmt} {x : Word} (h : units f x ≠ 0) : decide (units f x < 0) = signBit f x := by
  have hpos : 0 < mag f x := by
    rw [← units_natAbs]
    exact Int.natAbs_pos.2 h
  cases hs : signBit f x <;> simp [units, hs, hpos]

/-! ### Zeros and one -/

theorem posZero_eq_withSign (f : Fmt) : posZero = withSign f false 0 := by simp [posZero, withSign]

theorem signBit_withSign_zero (f : Fmt) (neg : Bool) : signBit f (withSign f neg 0) = neg :=
  signBit_withSign f neg 0 (Nat.two_pow_pos _)

theorem mag_withSign_zero (f : Fmt) (neg : Bool) : mag f (withSign f neg 0) = 0 := by
  rw [mag_withSign f neg 0 (Nat.two_pow_pos _), magOfLow_zero]

theorem units_withSign_zero (f : Fmt) (neg : Bool) : units f (withSign f neg 0) = 0 := by
  simp [units, mag_withSign_zero]

theorem isFinite_withSign_zero (f : Fmt) (neg : Bool) : isFinite f (withSign f neg 0) = true := by
  rw [isFinite, expField_withSign f neg 0 (Nat.two_pow_pos _)]
  cases f <;> decide

theorem flipSign_withSign_zero (f : Fmt) (neg : Bool) : flipSign f (withSign f neg 0) = withSign f (!neg) 0 := by
  have hlow := (mag_eq_zero_iff f (withSign f neg 0)).1 (mag_withSign_zero f neg)
  rw [lowBits] at hlow
  rw [flipSign, hlow, signBit_withSign_zero]

/-- Two zeros of the format are equal exactly when their signs are. -/
theorem withSign_zero_inj (f : Fmt) (neg neg' : Bool) : withSign f neg 0 = withSign f neg' 0 ↔ neg = neg' :=
  ⟨fun h => by simpa [signBit_withSign_zero] using congrArg (signBit f) h, fun h => by rw [h]⟩

/-- A datum of value 0 is a zero. -/
theorem eq_withSign_zero {f : Fmt} {x : Word} (hfit : Word.fits f x = true) (h : units f x = 0) :
    x = withSign f (signBit f x) 0 := by
  have hlow : lowBits f x = 0 := by rw [← mag_eq_zero_iff, ← units_natAbs, h, Int.natAbs_zero]
  rw [← hlow, withSign_signBit_lowBits f hfit]

theorem one_low_lt (f : Fmt) : bias f * 2 ^ f.fracBits < 2 ^ (f.flen - 1) := by cases f <;> decide

theorem signBit_one (f : Fmt) : signBit f (one f) = false := signBit_withSign f false _ (one_low_lt f)

theorem mag_one (f : Fmt) : mag f (one f) = 2 ^ unitExp f := by
  rw [one, mag_withSign f false _ (one_low_lt f), magOfLow_one]

theorem isFinite_one (f : Fmt) : isFinite f (one f) = true := by cases f <;> decide

/-! ### Products and sums with the components of the unit step (R98) -/

theorem fmul_one {f : Fmt} {x : Word} (d : Nat) (hfit : Word.fits f x = true) (hx : isFinite f x = true) :
    fmul f d x (one f) = x := by
  rw [fmul_of_isFinite d hx (isFinite_one f), mag_one, roundMag_mag hx (Nat.two_pow_pos _), signBit_one,
    Bool.bne_false, withSign_signBit_lowBits f hfit]

/-- A product with +0 is the zero with the sign of the other operand. -/
theorem fmul_posZero {f : Fmt} {x : Word} (d : Nat) (hx : isFinite f x = true) :
    fmul f d x posZero = withSign f (signBit f x) 0 := by
  rw [posZero_eq_withSign f, fmul_of_isFinite d hx (isFinite_withSign_zero f false), mag_withSign_zero, Nat.mul_zero,
    roundMag_zero, signBit_withSign_zero, Bool.bne_false]

/-- A sum of zeros is −0 exactly when both are (R111). -/
theorem fadd_zeros (f : Fmt) (d : Nat) (neg neg' : Bool) :
    fadd f d (withSign f neg 0) (withSign f neg' 0) = withSign f (neg && neg') 0 := by
  rw [fadd_of_isFinite d (isFinite_withSign_zero f neg) (isFinite_withSign_zero f neg'), units_withSign_zero,
    units_withSign_zero, if_pos (add_zero 0), signBit_withSign_zero, signBit_withSign_zero]

/-- Adding a zero changes nothing but −0, which a +0 turns into +0. -/
theorem fadd_withSign_zero {f : Fmt} {x : Word} (d : Nat) (neg : Bool) (hfit : Word.fits f x = true)
    (hx : isFinite f x = true) :
    fadd f d x (withSign f neg 0) = if x = negZero f ∧ neg = false then posZero else x := by
  by_cases hzero : units f x = 0
  · obtain ⟨neg', rfl⟩ : ∃ neg', x = withSign f neg' 0 := ⟨_, eq_withSign_zero hfit hzero⟩
    rw [fadd_zeros, negZero, posZero_eq_withSign f]
    cases neg' <;> cases neg <;> simp [withSign_zero_inj]
  · have hne : x ≠ negZero f := by
      rintro rfl
      exact hzero (units_withSign_zero f true)
    have hround : roundMag f (mag f x) 1 = lowBits f x := by simpa using roundMag_mag hx Nat.one_pos
    rw [fadd_of_isFinite d hx (isFinite_withSign_zero f neg), units_withSign_zero, add_zero, if_neg hzero,
      decide_units_neg hzero, units_natAbs, hround, withSign_signBit_lowBits f hfit, if_neg fun h => hne h.1]

/-- Settles O21: the products with 1.0 are the components themselves and those with +0 are zeros, so each component is
the old one plus a zero whose sign is that of the other component, flipped by the difference for the cosine. -/
theorem unitStepHoldsThePhase : Obligations.UnitStepHoldsThePhase := by
  intro s ps pc a b hc hw hp hfits hfitc hps hpc
  refine ⟨_, exec_advance_of_held a b hc hp hw, ?_⟩
  simp only [State.respond_phaseVec, State.advanceDraws_phaseVec, State.writePhase_phaseVec, rotate, fsub,
    fmul_one _ hfits hps, fmul_one _ hfitc hpc, fmul_posZero _ hps, fmul_posZero _ hpc, flipSign_withSign_zero,
    fadd_withSign_zero _ _ hfits hps, fadd_withSign_zero _ _ hfitc hpc, Bool.not_eq_false']

end Sys2Proof.Machine
end

section
/-! PROOFS. The datapath statements (41_datapath.md): special operands of products and sums (O25, O29) and their
commutativity (O32), rounding to nearest and overflow (O23, O24, O26, O27), exact zero and small sums (O28, O31), and
Rotate (O22, O33). -/

namespace Sys2Proof.Machine

/-- Settles O22: the draw indices are those of `rotate`. -/
theorem rotateFormula : Obligations.RotateFormula :=
  fun _ d _ _ _ _ => ⟨d, d + 1, d + 2, d + 3, d + 4, d + 5, rfl⟩

/-! ### The kind of a word, by its lower bits -/

theorem lowBits_withSign (f : Fmt) (neg : Bool) {low : Nat} (h : low < 2 ^ (f.flen - 1)) :
    lowBits f (withSign f neg low) = low := by
  rw [lowBits, withSign_toNat f neg low h]
  cases neg <;> simp [Nat.mod_eq_of_lt h]

theorem isInf_iff (f : Fmt) (w : Word) : isInf f w = true ↔ lowBits f w = infLow f := by
  rw [isInf, expField_eq, fracField_eq, Bool.and_eq_true, beq_iff_eq, beq_iff_eq]
  cases f <;> simp only [expMax, infLow, Fmt.fracBits, Fmt.expBits] <;> omega

theorem isNaN_eq_false_iff (f : Fmt) (w : Word) : isNaN f w = false ↔ lowBits f w ≤ infLow f := by
  rw [Nat.le_iff_lt_or_eq, ← isFinite_iff, ← isInf_iff, isFinite_eq]
  cases hnan : isNaN f w <;> cases hinf : isInf f w <;> simp_all [isNaN, isInf]

/-- A word with lower bits up to those of an infinity is no NaN. -/
theorem isNaN_withSign_of_le (f : Fmt) (neg : Bool) {low : Nat} (h : low ≤ infLow f) :
    isNaN f (withSign f neg low) = false := by
  rwa [isNaN_eq_false_iff, lowBits_withSign f neg (h.trans_lt (infLow_lt_sign f))]

theorem isFinite_eq_not_isInf {f : Fmt} {w : Word} (h : isNaN f w = false) : isFinite f w = !isInf f w := by
  rw [isFinite_eq, h, Bool.not_false, Bool.true_and]

theorem isFinite_of_not_isNaN_not_isInf {f : Fmt} {w : Word} (hnan : ¬ isNaN f w = true) (hinf : ¬ isInf f w = true) :
    isFinite f w = true :=
  (isFinite_iff_not_isNaN_not_isInf f w).2 ⟨Bool.eq_false_iff.2 hnan, Bool.eq_false_iff.2 hinf⟩

/-! ### Flipping the sign (R111: a difference is the sum with the other sign) -/

theorem fsub_eq_fadd_flipSign (f : Fmt) (d : Nat) (x y : Word) : fsub f d x y = fadd f d x (flipSign f y) := rfl

@[simp] theorem lowBits_flipSign (f : Fmt) (w : Word) : lowBits f (flipSign f w) = lowBits f w :=
  lowBits_withSign f _ (lowBits_lt f w)

@[simp] theorem signBit_flipSign (f : Fmt) (w : Word) : signBit f (flipSign f w) = !signBit f w :=
  signBit_withSign f _ _ (lowBits_lt f w)

@[simp] theorem isFinite_flipSign (f : Fmt) (w : Word) : isFinite f (flipSign f w) = isFinite f w := by
  rw [Bool.eq_iff_iff, isFinite_iff, isFinite_iff, lowBits_flipSign]

@[simp] theorem isInf_flipSign (f : Fmt) (w : Word) : isInf f (flipSign f w) = isInf f w := by
  rw [Bool.eq_iff_iff, isInf_iff, isInf_iff, lowBits_flipSign]

@[simp] theorem mag_flipSign (f : Fmt) (w : Word) : mag f (flipSign f w) = mag f w := by
  rw [mag_eq, mag_eq, lowBits_flipSign]

@[simp] theorem units_flipSign (f : Fmt) (w : Word) : units f (flipSign f w) = -units f w := by
  rw [units, units, signBit_flipSign, mag_flipSign]
  cases signBit f w <;> simp

/-! ### Products of special operands (R110, R112) -/

/-- The products that are NaN: of a NaN, or of an infinity and a zero. -/
def fmulInvalid (f : Fmt) (x y : Word) : Prop :=
  isNaN f x = true ∨ isNaN f y = true ∨
    (isInf f x = true ∧ isZero f y = true) ∨ (isZero f x = true ∧ isInf f y = true)

theorem fmul_of_invalid {f : Fmt} {x y : Word} (d : Nat) (h : fmulInvalid f x y) : fmul f d x y = drawnNaN f d := by
  unfold fmul
  split
  · rfl
  · next hnan =>
    rw [if_pos]
    simp only [fmulInvalid, Bool.or_eq_true, Bool.and_eq_true] at h hnan ⊢
    tauto

/-- Any other product has the XOR of the signs, and is an infinity where an operand is one. -/
theorem fmul_of_not_invalid {f : Fmt} {x y : Word} (d : Nat) (h : ¬ fmulInvalid f x y) :
    ∃ low ≤ infLow f, fmul f d x y = withSign f (signBit f x != signBit f y) low ∧
      (isInf f x = true ∨ isInf f y = true → low = infLow f) := by
  simp only [fmulInvalid, not_or] at h
  obtain ⟨hnanx, hnany, hinfzero, hzeroinf⟩ := h
  by_cases hinf : isInf f x = true ∨ isInf f y = true
  · refine ⟨infLow f, le_rfl, ?_, fun _ => rfl⟩
    rw [fmul, if_neg (by simp [hnanx, hnany]), if_neg (by simpa [-not_and] using ⟨hinfzero, hzeroinf⟩),
      if_pos (by simpa using hinf)]
  · refine ⟨_, roundMag_le f (mag f x * mag f y) (2 ^ unitExp f), ?_, fun h => absurd h hinf⟩
    obtain ⟨hinfx, hinfy⟩ := not_or.1 hinf
    exact fmul_of_isFinite d (isFinite_of_not_isNaN_not_isInf hnanx hinfx)
      (isFinite_of_not_isNaN_not_isInf hnany hinfy)

/-- Settles O25, by whether the product is one of the invalid ones. -/
theorem productSignsAndSpecials : Obligations.ProductSignsAndSpecials := by
  intro f d x y
  by_cases h : fmulInvalid f x y
  · rw [fmul_of_invalid d h, isNaN_drawnNaN]
    exact ⟨iff_of_true rfl h, by simp, by simp⟩
  · obtain ⟨low, hle, heq, hlow⟩ := fmul_of_not_invalid d h
    rw [heq, isNaN_withSign_of_le f _ hle]
    refine ⟨iff_of_false Bool.false_ne_true h, fun _ => signBit_withSign f _ _ (hle.trans_lt (infLow_lt_sign f)),
      fun hinf _ => ?_⟩
    rw [hlow hinf]
    exact isInf_withSign_infLow f _

/-! ### Sums of special operands (R111, R112) -/

/-- The sums that are NaN: of a NaN, or of infinities of opposite sign. -/
def faddInvalid (f : Fmt) (x y : Word) : Prop :=
  isNaN f x = true ∨ isNaN f y = true ∨ (isInf f x = true ∧ isInf f y = true ∧ signBit f x ≠ signBit f y)

theorem faddInvalid_comm {f : Fmt} {x y : Word} : faddInvalid f x y ↔ faddInvalid f y x := by
  rw [faddInvalid, faddInvalid, or_left_comm, and_left_comm, ne_comm]

theorem faddInvalid_flipSign (f : Fmt) (x y : Word) : faddInvalid f x (flipSign f y) ↔
    isNaN f x = true ∨ isNaN f y = true ∨ (isInf f x = true ∧ isInf f y = true ∧ signBit f x = signBit f y) := by
  simp [faddInvalid, isNaN_flipSign]

theorem isFinite_of_not_faddInvalid {f : Fmt} {x y : Word} (h : ¬ faddInvalid f x y) (hx : ¬ isInf f x = true)
    (hy : ¬ isInf f y = true) : isFinite f x = true ∧ isFinite f y = true := by
  simp only [faddInvalid, not_or] at h
  obtain ⟨hnanx, hnany, -⟩ := h
  exact ⟨isFinite_of_not_isNaN_not_isInf hnanx hx, isFinite_of_not_isNaN_not_isInf hnany hy⟩

theorem fadd_of_invalid {f : Fmt} {x y : Word} (d : Nat) (h : faddInvalid f x y) : fadd f d x y = drawnNaN f d := by
  unfold fadd
  split
  · rfl
  · next hnan =>
    rw [if_pos]
    simp only [faddInvalid, Bool.or_eq_true, Bool.and_eq_true, bne_iff_ne] at h hnan ⊢
    tauto

theorem fadd_of_isInf_left {f : Fmt} {x y : Word} (d : Nat) (h : ¬ faddInvalid f x y) (hx : isInf f x = true) :
    fadd f d x y = withSign f (signBit f x) (infLow f) := by
  simp only [faddInvalid, not_or] at h
  obtain ⟨hnanx, hnany, hsigns⟩ := h
  rw [fadd, if_neg (by simp [hnanx, hnany]), if_neg (by simpa [and_assoc] using hsigns), if_pos hx]

/-- Where both operands are infinities of one sum, they have one sign. -/
theorem fadd_of_isInf_right {f : Fmt} {x y : Word} (d : Nat) (h : ¬ faddInvalid f x y) (hy : isInf f y = true) :
    fadd f d x y = withSign f (signBit f y) (infLow f) := by
  have hsigns : isInf f x = true → signBit f x = signBit f y := fun hx => by
    by_contra hne
    exact h (.inr (.inr ⟨hx, hy, hne⟩))
  by_cases hx : isInf f x = true
  · rw [fadd_of_isInf_left d h hx, hsigns hx]
  · simp only [faddInvalid, not_or] at h
    obtain ⟨hnanx, hnany, -⟩ := h
    simp [fadd, hnanx, hnany, hx, hy]

/-! ### Sums of finite operands: one rounding, with the sign of the exact sum (R111) -/

theorem roundMag_of_zero (f : Fmt) {den : Nat} (hd : 0 < den) : roundMag f 0 den = 0 := by
  simpa [magOfLow_zero] using roundMag_exact f 0 den hd (Nat.zero_le _)

/-- The sign of a sum: that of its value, and for a zero sum −0 exactly when both operands are negative. -/
def sumSign (f : Fmt) (x y : Word) : Bool :=
  if units f x + units f y = 0 then signBit f x && signBit f y else decide (units f x + units f y < 0)

theorem fadd_eq_round {f : Fmt} {x y : Word} (d : Nat) (hx : isFinite f x = true) (hy : isFinite f y = true) :
    fadd f d x y = withSign f (sumSign f x y) (roundMag f (units f x + units f y).natAbs 1) := by
  rw [fadd_of_isFinite d hx hy, sumSign]
  split
  · next hzero =>
    rw [hzero, Int.natAbs_zero, roundMag_of_zero f Nat.one_pos]
  · rfl

theorem isNaN_fadd_iff {f : Fmt} {x y : Word} (d : Nat) : isNaN f (fadd f d x y) = true ↔ faddInvalid f x y := by
  constructor
  · contrapose
    intro h
    have hinf (neg : Bool) := isNaN_withSign_of_le f neg (le_refl (infLow f))
    rw [Bool.not_eq_true]
    by_cases hx : isInf f x = true
    · rw [fadd_of_isInf_left d h hx, hinf]
    by_cases hy : isInf f y = true
    · rw [fadd_of_isInf_right d h hy, hinf]
    obtain ⟨hfinx, hfiny⟩ := isFinite_of_not_faddInvalid h hx hy
    rw [fadd_eq_round d hfinx hfiny]
    exact isNaN_withSign_of_le f _ (roundMag_le f _ _)
  · intro h
    rw [fadd_of_invalid d h, isNaN_drawnNaN]

theorem not_faddInvalid {f : Fmt} {d : Nat} {x y : Word} (h : isNaN f (fadd f d x y) = false) :
    ¬ faddInvalid f x y := by
  rw [← isNaN_fadd_iff d, h]
  exact Bool.false_ne_true

/-- Settles O29: the two facts on infinite operands, for a difference with the sign of the subtrahend flipped. -/
theorem infiniteSums : Obligations.InfiniteSums := fun f d x y =>
  ⟨isNaN_fadd_iff d, (isNaN_fadd_iff d).trans (faddInvalid_flipSign f x y),
    fun hx h => fadd_of_isInf_left d (not_faddInvalid h) hx,
    fun hy h => fadd_of_isInf_right d (not_faddInvalid h) hy,
    fun hx h => fadd_of_isInf_left d (not_faddInvalid h) hx,
    fun hy h => by
      rw [fsub_eq_fadd_flipSign, fadd_of_isInf_right d (not_faddInvalid h) (by rwa [isInf_flipSign]), signBit_flipSign]⟩

/-! ### Operand order (R118) -/

theorem fmul_comm (f : Fmt) (d : Nat) (x y : Word) : fmul f d x y = fmul f d y x := by
  unfold fmul
  rw [Bool.or_comm (isNaN f y), Bool.or_comm (isInf f y && _), Bool.and_comm (isInf f y), Bool.and_comm (isZero f y),
    Bool.or_comm (isInf f y), bne_comm, Nat.mul_comm]

theorem sumSign_comm (f : Fmt) (x y : Word) : sumSign f x y = sumSign f y x := by
  rw [sumSign, sumSign, add_comm, Bool.and_comm]

theorem fadd_comm (f : Fmt) (d : Nat) (x y : Word) : fadd f d x y = fadd f d y x := by
  by_cases h : faddInvalid f x y
  · rw [fadd_of_invalid d h, fadd_of_invalid d (faddInvalid_comm.1 h)]
  have h' : ¬ faddInvalid f y x := fun hyx => h (faddInvalid_comm.1 hyx)
  by_cases hx : isInf f x = true
  · rw [fadd_of_isInf_left d h hx, fadd_of_isInf_right d h' hx]
  by_cases hy : isInf f y = true
  · rw [fadd_of_isInf_right d h hy, fadd_of_isInf_left d h' hy]
  obtain ⟨hfinx, hfiny⟩ := isFinite_of_not_faddInvalid h hx hy
  rw [fadd_eq_round d hfinx hfiny, fadd_eq_round d hfiny hfinx, sumSign_comm, add_comm]

/-- Settles O32: every condition of the two operations treats the operands alike. -/
theorem operandOrderDoesNotMatter : Obligations.OperandOrderDoesNotMatter :=
  fun f d x y => ⟨fmul_comm f d x y, fadd_comm f d x y⟩

/-! ### Rounding a signed value (R110, R111, R113) -/

theorem roundMag_lt_sign (f : Fmt) (num den : Nat) : roundMag f num den < 2 ^ (f.flen - 1) :=
  (roundMag_le f num den).trans_lt (infLow_lt_sign f)

theorem units_withSign (f : Fmt) (neg : Bool) {low : Nat} (h : low < 2 ^ (f.flen - 1)) :
    units f (withSign f neg low) = if neg then -(magOfLow f.fracBits low : ℤ) else magOfLow f.fracBits low := by
  rw [units, signBit_withSign f neg low h, mag_withSign f neg low h]

theorem isFinite_withSign_roundMag {f : Fmt} {neg : Bool} {num den : Nat} :
    isFinite f (withSign f neg (roundMag f num den)) = true ↔ roundMag f num den < infLow f := by
  rw [isFinite_iff, lowBits_withSign f neg (roundMag_lt_sign f num den)]

theorem isInf_withSign_roundMag {f : Fmt} {neg : Bool} {num den : Nat} :
    isInf f (withSign f neg (roundMag f num den)) = true ↔ roundMag f num den = infLow f := by
  rw [isInf_iff, lowBits_withSign f neg (roundMag_lt_sign f num den)]

/-- The sign is not the last bit. -/
theorem withSign_toNat_mod_two (f : Fmt) (neg : Bool) {low : Nat} (h : low < 2 ^ (f.flen - 1)) :
    (withSign f neg low).toNat % 2 = low % 2 := by
  have heven : 2 ^ (f.flen - 1) % 2 = 0 := by cases f <;> rfl
  rw [withSign_toNat f neg low h]
  cases neg <;> simp; omega

/-- `neg` is the sign of the integer `v`, and either sign will do for 0. -/
def signOf (neg : Bool) (v : ℤ) : Prop := v = if neg then -(v.natAbs : ℤ) else v.natAbs

theorem signOf_mul (f : Fmt) (x y : Word) : signOf (signBit f x != signBit f y) (units f x * units f y) := by
  rw [signOf, Int.natAbs_mul, units_natAbs, units_natAbs, units, units]
  cases signBit f x <;> cases signBit f y <;> simp

theorem signOf_sum (f : Fmt) (x y : Word) : signOf (sumSign f x y) (units f x + units f y) := by
  rw [signOf, sumSign]
  generalize units f x + units f y = v
  by_cases hzero : v = 0
  · simp [hzero]
  · rw [if_neg hzero]
    by_cases hneg : v < 0
    · simp [hneg, abs_of_neg hneg]
    · simp [hneg, abs_of_nonneg (not_lt.1 hneg)]

/-- No word has a value nearer to v/den than `r` has, and where another value is as near `r` ends in a 0 bit. -/
def IsNearestEven (f : Fmt) (v den : ℤ) (r : Word) : Prop :=
  ∀ z, |v - units f r * den| ≤ |v - units f z * den| ∧
    (units f z ≠ units f r → |v - units f z * den| = |v - units f r * den| → r.toNat % 2 = 0)

/-- `roundMag_nearest` against values of either sign: a negative one is no nearer than 0. -/
theorem roundMag_nearest_int {f : Fmt} {num den low : Nat} (u : ℤ) (hu : u.natAbs = magOfLow f.fracBits low)
    (hd : 0 < den) (h : roundMag f num den < infLow f) :
    |(num : ℤ) - magOfLow f.fracBits (roundMag f num den) * den| ≤ |(num : ℤ) - u * den| ∧
      (u ≠ magOfLow f.fracBits (roundMag f num den) →
        |(num : ℤ) - u * den| = |(num : ℤ) - magOfLow f.fracBits (roundMag f num den) * den| →
        roundMag f num den % 2 = 0) := by
  obtain hpos | hneg := le_or_gt 0 u
  · obtain ⟨hnear, htie⟩ := roundMag_nearest f num den low hd h
    have hlow : u = magOfLow f.fracBits low := by omega
    rw [hlow]
    exact ⟨hnear, fun hne => htie (by rintro rfl; exact hne rfl)⟩
  · obtain ⟨hnear, -⟩ := roundMag_nearest f num den 0 hd h
    have hfar : |(num : ℤ)| < |(num : ℤ) - u * den| := by
      have : u * den < 0 := mul_neg_of_neg_of_pos hneg (by exact_mod_cast hd)
      rw [abs_of_nonneg (Int.natCast_nonneg num), abs_of_nonneg] <;> omega
    rw [magOfLow_zero, Nat.cast_zero, zero_mul, sub_zero] at hnear
    exact ⟨(hnear.trans_lt hfar).le, fun _ heq => absurd heq (hnear.trans_lt hfar).ne'⟩

theorem withSign_roundMag_nearest {f : Fmt} {neg : Bool} {v : ℤ} {den : Nat} (hv : signOf neg v) (hd : 0 < den)
    (hfin : isFinite f (withSign f neg (roundMag f v.natAbs den)) = true) :
    IsNearestEven f v den (withSign f neg (roundMag f v.natAbs den)) := by
  rw [isFinite_withSign_roundMag] at hfin
  intro z
  have hz : (units f z).natAbs = magOfLow f.fracBits (lowBits f z) := by rw [units_natAbs, mag_eq]
  rw [withSign_toNat_mod_two f neg (roundMag_lt_sign f _ _), units_withSign f neg (roundMag_lt_sign f _ _)]
  rw [signOf] at hv
  generalize v.natAbs = num at hv hfin ⊢
  subst hv
  cases neg with
  | false => exact roundMag_nearest_int (units f z) hz hd hfin
  | true =>
    have hflip (u : ℤ) : |-(num : ℤ) - u * den| = |(num : ℤ) - -u * den| := by
      rw [← abs_neg]
      congr 1
      ring
    obtain ⟨hnear, htie⟩ := roundMag_nearest_int (-units f z) (by rwa [Int.natAbs_neg]) hd hfin
    simp only [if_true, hflip, neg_neg]
    exact ⟨hnear, fun hne => htie fun heq => hne (by rw [← heq, neg_neg])⟩

theorem natAbs_units_mul (f : Fmt) (x y : Word) : (units f x * units f y).natAbs = mag f x * mag f y := by
  rw [Int.natAbs_mul, units_natAbs, units_natAbs]

/-- Settles O23: the exact product has the XOR of the signs and the product of the magnitudes, rounded once. -/
theorem productIsNearestEven : Obligations.ProductIsNearestEven := by
  intro f d x y z hx hy _ hfin
  rw [fmul_of_isFinite d hx hy, ← natAbs_units_mul] at hfin ⊢
  simpa using withSign_roundMag_nearest (signOf_mul f x y) (Nat.two_pow_pos _) hfin z

theorem fadd_nearest {f : Fmt} {d : Nat} {x y : Word} (hx : isFinite f x = true) (hy : isFinite f y = true)
    (hfin : isFinite f (fadd f d x y) = true) : IsNearestEven f (units f x + units f y) 1 (fadd f d x y) := by
  rw [fadd_eq_round d hx hy] at hfin ⊢
  exact withSign_roundMag_nearest (signOf_sum f x y) Nat.one_pos hfin

/-- Settles O26: the difference is the sum with the subtrahend's sign flipped. -/
theorem sumIsNearestEven : Obligations.SumIsNearestEven := by
  intro f d x y z hx hy _
  constructor <;> intro hfin
  · simpa using fadd_nearest hx hy hfin z
  · simpa [← sub_eq_add_neg, ← fsub_eq_fadd_flipSign] using fadd_nearest hx ((isFinite_flipSign f y).trans hy) hfin z

/-! ### Overflow (R110, R111) -/

/-- At least `t` bits are dropped exactly where the value has FRACBITS+1 significant bits above them. -/
theorem le_dropBits_iff {f : Fmt} {t num den : Nat} (hd : 0 < den) (ht : 0 < t) :
    t ≤ dropBits f num den ↔ 2 ^ f.fracBits * (den * 2 ^ t) ≤ num := by
  rw [Nat.mul_comm den, ← mul_assoc, ← pow_add, ← Nat.le_div_iff_mul_le hd, dropBits]
  by_cases hq : num / den = 0
  · simp [hq, ht.ne']
  · rw [← Nat.le_log2 hq]
    omega

/-- A quotient rounds up to an even integer exactly from the half below it. -/
theorem le_divNearestEven_iff {q num den : Nat} (hd : 0 < den) (hq : q % 2 = 0) :
    q ≤ divNearestEven num den ↔ 2 * (q * den) ≤ 2 * num + den := by
  obtain ⟨hlow, hhigh⟩ := divNearestEven_near num den hd
  have htie := divNearestEven_tie num den hd
  constructor
  · intro h
    have := Nat.mul_le_mul_right den h
    omega
  · intro h
    by_contra hlt
    have hmul := Nat.mul_le_mul_right den (Nat.not_le.1 hlt)
    rw [Nat.succ_mul] at hmul
    have heven := htie (.inl (by omega))
    have hq : q * den = (divNearestEven num den + 1) * den := by rw [Nat.succ_mul]; omega
    have := Nat.eq_of_mul_eq_mul_right hd hq
    omega

/-- Infinity is the encoding after the largest exponent field and a full significand. -/
theorem infLow_eq (f : Fmt) : infLow f = (expMax f - 2) * 2 ^ f.fracBits + 2 ^ (f.fracBits + 1) := by
  cases f <;> rfl

theorem infLow_pos (f : Fmt) : 0 < infLow f := by
  rw [infLow_eq]
  positivity

/-- The overflow threshold, by whether the value drops fewer, as many or more bits than the top binade. -/
theorem roundMag_eq_infLow_iff {f : Fmt} {num den : Nat} (hd : 0 < den) :
    roundMag f num den = infLow f ↔ (2 ^ (f.fracBits + 2) - 1) * 2 ^ (expMax f - 2) * den ≤ 2 * num := by
  obtain ⟨hle, hfull⟩ := significand_bounds f num den
  have hpos : 0 < expMax f - 2 := by cases f <;> decide
  rw [roundMag, min_eq_right_iff, infLow_eq]
  generalize expMax f - 2 = T at hpos ⊢
  have hscale : 0 < den * 2 ^ T := Nat.mul_pos hd (Nat.two_pow_pos T)
  have hunit : den * 2 ^ T ≤ 2 ^ f.fracBits * (den * 2 ^ T) := Nat.le_mul_of_pos_left _ (Nat.two_pow_pos _)
  have hthreshold : (2 ^ (f.fracBits + 2) - 1) * 2 ^ T * den = 4 * (2 ^ f.fracBits * (den * 2 ^ T)) - den * 2 ^ T := by
    rw [mul_assoc, Nat.sub_mul, pow_add]
    ring_nf
  have hcarry : 2 ^ (f.fracBits + 1) = 2 * 2 ^ f.fracBits := by ring
  obtain hlt | heq | hgt := Nat.lt_trichotomy (dropBits f num den) T
  · have hsmall := (le_dropBits_iff hd hpos).not.1 hlt.not_ge
    have hdrop := Nat.mul_lt_mul_of_pos_right hlt (Nat.two_pow_pos f.fracBits)
    omega
  · have htop := le_divNearestEven_iff (q := 2 ^ (f.fracBits + 1)) (num := num) hscale (by omega)
    rw [hcarry, mul_assoc 2] at htop
    rw [heq]
    omega
  · have hbig := (le_dropBits_iff hd (Nat.succ_pos T)).1 hgt
    rw [show den * 2 ^ (T + 1) = 2 * (den * 2 ^ T) by ring, mul_left_comm] at hbig
    have hdrop := Nat.mul_le_mul_right (2 ^ f.fracBits) hgt
    rw [Nat.succ_mul] at hdrop
    omega

/-- Settles O24: a product of finite operands is one rounding, which is infinite from the threshold on. -/
theorem productOverflow : Obligations.ProductOverflow := by
  intro f d x y hx hy
  rw [fmul_of_isFinite d hx hy]
  exact ⟨isFinite_eq_not_isInf (isNaN_withSign_of_le f _ (roundMag_le f _ _)),
    isInf_withSign_roundMag.trans (roundMag_eq_infLow_iff (Nat.two_pow_pos _))⟩

theorem fadd_overflow {f : Fmt} {x y : Word} (d : Nat) (hx : isFinite f x = true) (hy : isFinite f y = true) :
    isFinite f (fadd f d x y) = !isInf f (fadd f d x y) ∧
    (isInf f (fadd f d x y) = true ↔
      (2 ^ (f.fracBits + 2) - 1) * 2 ^ (expMax f - 2) ≤ 2 * (units f x + units f y).natAbs) ∧
    (isInf f (fadd f d x y) = true → signBit f (fadd f d x y) = decide (units f x + units f y < 0)) := by
  have hthreshold := roundMag_eq_infLow_iff (f := f) (num := (units f x + units f y).natAbs) Nat.one_pos
  rw [mul_one] at hthreshold
  rw [fadd_eq_round d hx hy, isInf_withSign_roundMag, signBit_withSign f _ _ (roundMag_lt_sign f _ _)]
  refine ⟨isFinite_eq_not_isInf (isNaN_withSign_of_le f _ (roundMag_le f _ _)), hthreshold, fun hinf => ?_⟩
  have hne : units f x + units f y ≠ 0 := fun hzero => by
    rw [hzero, Int.natAbs_zero, roundMag_of_zero f Nat.one_pos] at hinf
    exact (infLow_pos f).ne hinf
  rw [sumSign, if_neg hne]

/-- Settles O27: the difference is the sum with the subtrahend's sign flipped. -/
theorem sumOverflow : Obligations.SumOverflow := by
  intro f d x y hx hy
  obtain ⟨hfin, hinf, hsign⟩ := fadd_overflow d hx hy
  refine ⟨hfin, hinf, hsign, ?_⟩
  rw [sub_eq_add_neg, ← units_flipSign]
  exact fadd_overflow d hx ((isFinite_flipSign f y).trans hy)

/-! ### Exact sums (R111, R113) -/

theorem fadd_of_zero_sum {f : Fmt} {x y : Word} (d : Nat) (hx : isFinite f x = true) (hy : isFinite f y = true)
    (h : units f x + units f y = 0) :
    fadd f d x y = if signBit f x = true ∧ signBit f y = true then negZero f else posZero := by
  rw [fadd_of_isFinite d hx hy, if_pos h, negZero, posZero_eq_withSign f]
  cases signBit f x <;> cases signBit f y <;> rfl

/-- Settles O28: flipping the subtrahend's sign makes the difference the sum. -/
theorem zeroSumsHaveTheRuledSign : Obligations.ZeroSumsHaveTheRuledSign := by
  refine fun f d x y hx hy => ⟨fadd_of_zero_sum d hx hy, fun h => ?_⟩
  rw [sub_eq_add_neg, ← units_flipSign] at h
  simpa [← fsub_eq_fadd_flipSign] using fadd_of_zero_sum d hx ((isFinite_flipSign f y).trans hy) h

/-- Below the first dropped bit a number is its own encoding. -/
theorem magOfLow_of_lt {p n : Nat} (h : n < 2 ^ (p + 1)) : magOfLow p n = n := by
  simpa using magOfLow_encode p 0 n h.le (.inl rfl)

theorem units_fadd_of_small {f : Fmt} {x y : Word} (d : Nat) (hx : isFinite f x = true) (hy : isFinite f y = true)
    (h : (units f x + units f y).natAbs < 2 ^ (f.fracBits + 1)) :
    units f (fadd f d x y) = units f x + units f y := by
  have hle : (units f x + units f y).natAbs ≤ infLow f := h.le.trans (by rw [infLow_eq]; exact Nat.le_add_left _ _)
  have hround := roundMag_exact f _ 1 Nat.one_pos hle
  rw [magOfLow_of_lt h, mul_one] at hround
  rw [fadd_eq_round d hx hy, units_withSign f _ (roundMag_lt_sign f _ _), hround, magOfLow_of_lt h]
  exact (signOf_sum f x y).symm

/-- Settles O31: a magnitude below the first dropped bit is an encoding, and encodings round to themselves. -/
theorem smallSumsAreExact : Obligations.SmallSumsAreExact := by
  refine fun f d x y hx hy => ⟨units_fadd_of_small d hx hy, fun h => ?_⟩
  rw [sub_eq_add_neg, ← units_flipSign] at h ⊢
  exact units_fadd_of_small d hx ((isFinite_flipSign f y).trans hy) h

/-! ### Rotating bounded pairs (R112, R116) -/

/-- Sixteen times the magnitude of 1.0 is below the overflow threshold. -/
theorem sixteen_below_overflow (f : Fmt) :
    2 * (16 * mag f (one f)) < (2 ^ (f.fracBits + 2) - 1) * 2 ^ (expMax f - 2) := by
  have hexp : unitExp f + 5 ≤ f.fracBits + 1 + (expMax f - 2) := by cases f <;> decide
  have hsig : 2 ^ (f.fracBits + 1) < 2 ^ (f.fracBits + 2) - 1 := by cases f <;> decide
  calc 2 * (16 * mag f (one f)) = 2 ^ (unitExp f + 5) := by rw [mag_one]; ring
    _ ≤ 2 ^ (f.fracBits + 1) * 2 ^ (expMax f - 2) := by rw [← pow_add]; exact Nat.pow_le_pow_right Nat.two_pos hexp
    _ < (2 ^ (f.fracBits + 2) - 1) * 2 ^ (expMax f - 2) := Nat.mul_lt_mul_of_pos_right hsig (Nat.two_pow_pos _)

theorem roundMag_lt_infLow_of_le {f : Fmt} {num den : Nat} (hd : 0 < den) (h : num ≤ 16 * mag f (one f) * den) :
    roundMag f num den < infLow f := by
  refine (roundMag_le f num den).lt_of_ne fun hinf => ?_
  have hreach := (roundMag_eq_infLow_iff hd).1 hinf
  have hbelow := Nat.mul_lt_mul_of_pos_right (sixteen_below_overflow f) hd
  rw [mul_assoc 2] at hbelow
  omega

/-- Rounding at most doubles: 0 is no nearer. -/
theorem magOfLow_roundMag_le {f : Fmt} {num den : Nat} (hd : 0 < den) (h : roundMag f num den < infLow f) :
    magOfLow f.fracBits (roundMag f num den) * den ≤ 2 * num := by
  obtain ⟨hnear, -⟩ := roundMag_nearest f num den 0 hd h
  rw [magOfLow_zero, ← Nat.cast_mul] at hnear
  generalize magOfLow f.fracBits (roundMag f num den) * den = r at hnear ⊢
  rw [Nat.cast_zero, zero_mul, sub_zero, abs_of_nonneg (Int.natCast_nonneg num)] at hnear
  have := (abs_le.1 hnear).1
  omega

theorem fmul_magAtMost {f : Fmt} {x y : Word} (d : Nat) (hx : magAtMost f 2 x) (hy : magAtMost f 2 y) :
    magAtMost f 8 (fmul f d x y) := by
  obtain ⟨hfinx, hmagx⟩ := hx
  obtain ⟨hfiny, hmagy⟩ := hy
  have hd : 0 < mag f (one f) := by rw [mag_one]; exact Nat.two_pow_pos _
  have hprod : mag f x * mag f y ≤ 4 * mag f (one f) * mag f (one f) :=
    (Nat.mul_le_mul hmagx hmagy).trans_eq (by ring)
  have hlt := roundMag_lt_infLow_of_le hd (hprod.trans (Nat.mul_le_mul_right _ (Nat.mul_le_mul_right _ (by decide))))
  rw [fmul_of_isFinite d hfinx hfiny, ← mag_one]
  refine ⟨isFinite_withSign_roundMag.2 hlt, ?_⟩
  rw [mag_withSign f _ _ (roundMag_lt_sign f _ _)]
  have hdouble := (magOfLow_roundMag_le hd hlt).trans (Nat.mul_le_mul_left 2 hprod)
  exact Nat.le_of_mul_le_mul_right (hdouble.trans_eq (by ring)) hd

theorem fadd_of_magAtMost {f : Fmt} {x y : Word} (d : Nat) (hx : magAtMost f 8 x) (hy : magAtMost f 8 y) :
    isFinite f (fadd f d x y) = true := by
  obtain ⟨hfinx, hmagx⟩ := hx
  obtain ⟨hfiny, hmagy⟩ := hy
  rw [fadd_eq_round d hfinx hfiny, isFinite_withSign_roundMag]
  refine roundMag_lt_infLow_of_le Nat.one_pos ((Int.natAbs_add_le _ _).trans ?_)
  rw [units_natAbs, units_natAbs]
  omega

theorem magAtMost_flipSign {f : Fmt} {k : Nat} {w : Word} : magAtMost f k (flipSign f w) ↔ magAtMost f k w := by
  rw [magAtMost, magAtMost, isFinite_flipSign, mag_flipSign]

/-- Settles O33: products of components are at most 8, and sums of two such are far from overflow. -/
theorem boundedRotationIsFinite : Obligations.BoundedRotationIsFinite := fun _ _ _ _ hps hpc hws hwc =>
  ⟨fadd_of_magAtMost _ (fmul_magAtMost _ hps hwc) (fmul_magAtMost _ hpc hws),
    fadd_of_magAtMost _ (fmul_magAtMost _ hpc hwc) (magAtMost_flipSign.2 (fmul_magAtMost _ hps hws))⟩

end Sys2Proof.Machine
end

section
/-! PROOFS. The exception statements (60_exceptions.md): which commands are undefined (O11), what an error response
leaves unchanged (O13), and that nothing happens at an edge without a handshake (O45). -/

namespace Sys2Proof.Machine

/-! ### Undefined commands and error responses (R131, R135, R136) -/

/-- CONSTRUCT and SETSTEP are the only commands R136 can call undefined, and both fault where it does. -/
theorem exec_of_undefined {i : Instr} {s : State} (h : commandUndefined i s = true) :
    exec i s = .fault .undefinedOperand := by
  cases i with
  | advance a b => cases h
  | setstep a b =>
    obtain ⟨hc, ha⟩ : s.constructed = true ∧ isFinite s.fmt a = false := by simpa [commandUndefined] using h
    exact exec_setstep_of_not_finite b hc ha
  | construct a b =>
    exact exec_construct_of_not_finite (by simpa [commandUndefined] using h)
  | reserved a b => cases h

/-- Settles O11. -/
theorem undefinedOperandExactly : Obligations.UndefinedOperandExactly :=
  fun _ _ => ⟨exec_of_undefined, exec_of_defined⟩

/-- A command that completes appends a response of code OK, or does nothing but append a response of +0 twice. -/
theorem exec_ok_or_respondZero {i : Instr} {s t : State} (h : exec i s = .next t) :
    (∃ x y, t.rsps = s.rsps ++ [⟨.ok, x, y⟩]) ∨ ∃ code, t = s.respondZero code := by
  cases i with
  | advance a b =>
    obtain ⟨p, w, -, -, -, rfl⟩ | ⟨-, rfl⟩ := execAdvance_cases (a := a) (b := b) h
    · exact .inl ⟨p.sin, p.cos, rfl⟩
    · exact .inr ⟨.notConstructed, rfl⟩
  | setstep a b =>
    obtain ⟨-, -, rfl⟩ | ⟨-, rfl⟩ := execSetstep_cases (a := a) (b := b) h
    · exact .inl ⟨posZero, posZero, rfl⟩
    · exact .inr ⟨.notConstructed, rfl⟩
  | construct a b =>
    obtain ⟨-, -, rfl⟩ := execConstruct_cases h
    exact .inl ⟨posZero, posZero, rfl⟩
  | reserved a b => exact .inr ⟨.illegalCmd, execReserved_cases (a := a) (b := b) h⟩

/-- Settles O13: a response whose code is not OK comes from a command that only appended it. -/
theorem errorsArePrecise : Obligations.ErrorsArePrecise := by
  intro i s t r h hrsps hcode
  obtain ⟨x, y, hok⟩ | ⟨code, rfl⟩ := exec_ok_or_respondZero h
  · obtain rfl : r = ⟨.ok, x, y⟩ := by simpa using hrsps.symm.trans hok
    exact absurd rfl hcode
  · obtain rfl : ⟨code, posZero, posZero⟩ = r := by simpa using hrsps
    exact ⟨rfl, rfl, rfl⟩

/-! ### An edge without a handshake (R148) -/

theorem cmdTransfers_of_not_cmdValid {d : Drive} {s : State} (h : d.cmdValid = false) : cmdTransfers d s = false := by
  simp [cmdTransfers, h]

/-- Settles O45: neither handshake happens, and the reset bit is 0 before the edge as after it. -/
theorem quietEdgeHoldsTheState : Obligations.QuietEdgeHoldsTheState := by
  intro s hm hrst hvalid hready hprev hfree
  rw [step_eq, clockEdge_of_free (s := s.dropDrive) hm hrst hfree,
    State.acceptCommand_of_not _ _ (cmdTransfers_of_not_cmdValid hvalid),
    State.takeResponse_of_not _ _ (rspTransfers_of_not_rspReady hready), ← hprev]
  rfl

end Sys2Proof.Machine
end

section
/-! PROOFS. The reset and hazard statements (70_reset_and_hazards.md): the latency of each opcode (O38), the edges a
flight has left (O39, O55), and the edge that leaves reset (O48). -/

namespace Sys2Proof.Machine

/-! ### The latency of an opcode (R170) -/

/-- Settles O38: each row is the definition at one opcode. -/
theorem latencyByOpcode : Obligations.LatencyByOpcode := fun _ => ⟨rfl, rfl, rfl, rfl⟩

theorem Params.valid_iff (p : Params) :
    p.valid = true ↔ 1 ≤ p.latConstruct ∧ 1 ≤ p.latSetstep ∧ 1 ≤ p.latAdvance ∧ 1 ≤ p.rspDepth := by
  simp [Params.valid, and_assoc]

/-- R8: no command of a valid instance completes at the edge it transfers at. -/
theorem one_le_latency {p : Params} (hp : p.valid = true) (op : BitVec 2) : 1 ≤ latency p op := by
  obtain ⟨hconstruct, hsetstep, hadvance, -⟩ := (Params.valid_iff p).1 hp
  unfold latency
  split
  · exact hconstruct
  · split
    · exact hsetstep
    · exact hadvance

/-! ### A flight has between 1 and LAT edges left (R170): one rule per update -/

theorem State.flightTimed_of_free {s : State} (hfree : s.inFlight = none) : s.flightTimed = true := by
  simp [State.flightTimed, hfree]

theorem State.flightTimed_of_inFlight {s : State} {c : InFlight} (hc : s.inFlight = some c) :
    s.flightTimed = true ↔ 1 ≤ c.left ∧ c.left ≤ latency s.params c.cmd.op := by
  simp [State.flightTimed, hc]

theorem State.flightTimed_congr {s t : State} (hflight : t.inFlight = s.inFlight) (hparams : t.params = s.params) :
    t.flightTimed = s.flightTimed := by
  rw [State.flightTimed, State.flightTimed, hflight, hparams]

/-- A transferring command starts with its whole latency ahead, which is at least one edge. -/
theorem State.flightTimed_acceptCommand {s : State} (d : Drive) (hp : s.params.valid = true)
    (hs : s.flightTimed = true) : (s.acceptCommand d).flightTimed = true := by
  cases h : cmdTransfers d s
  · rwa [State.acceptCommand_of_not d s h]
  · rw [State.acceptCommand_of d s h]
    exact (State.flightTimed_of_inFlight rfl).2 ⟨one_le_latency hp d.cmd.op, le_rfl⟩

/-- A reset or completing edge ends the flight, an edge with nothing in flight may start one, and any other takes one
edge from at least two. -/
theorem clockEdge_keeps_flightTimed {d : Drive} {s t : State} (hp : s.params.valid = true) (hs : s.flightTimed = true)
    (h : clockEdge d s = .next t) : t.flightTimed = true := by
  obtain ⟨-, ⟨-, rfl⟩ | ⟨-, -, rfl⟩ | ⟨-, c, -, -, hexec⟩ | ⟨-, c, hc, hleft, rfl⟩⟩ := clockEdge_cases h
  · exact State.flightTimed_of_free rfl
  · rw [State.flightTimed_congr (s := s.acceptCommand d) (by simp) (by simp)]
    exact State.flightTimed_acceptCommand d hp hs
  · obtain ⟨-, hflight, -⟩ := exec_next hexec
    exact State.flightTimed_of_free hflight
  · obtain ⟨-, hle⟩ := (State.flightTimed_of_inFlight hc).1 hs
    rw [State.flightTimed_of_inFlight (c := { c with left := c.left - 1 }) rfl, State.setPrevRst_params,
      State.setInFlight_params, State.takeResponse_params]
    exact ⟨Nat.le_sub_one_of_lt hleft, (Nat.sub_le c.left 1).trans hle⟩

/-- Settles O55: consuming the drive touches neither flight nor parameters, and every edge keeps the bounds. -/
theorem flightStaysWithinItsLatency : Obligations.FlightStaysWithinItsLatency :=
  fun s _ hp hs h => clockEdge_keeps_flightTimed (s := s.dropDrive) hp hs h

/-- Settles O39: such an edge is `step_of_flying`, and a command still in flight keeps `cmd_ready` at 0. -/
theorem flightCountsDown : Obligations.FlightCountsDown := by
  intro s c hc hleft hm hrst
  obtain ⟨t, ht, hflight, hsame⟩ := step_of_flying hm hrst hc hleft
  exact ⟨t, ht, hflight, State.cmdReady_of_inFlight hflight, hsame.constructed, hsame.stepVec, hsame.phaseVec,
    hsame.nanDraws, hsame.responses⟩

/-! ### The edge that leaves reset (R161) -/

theorem rspTransfers_of_not_rspValid {d : Drive} {s : State} (h : s.rspValid = false) : rspTransfers d s = false := by
  simp [rspTransfers, h]

/-- While the reset bit is 1 both output handshakes are down (R43, R160). -/
theorem State.ports_of_prevRst {s : State} (h : s.prevRst = true) : s.cmdReady = false ∧ s.rspValid = false := by
  simp [State.cmdReady, State.rspValid, h]

/-- Settles O48: with both output handshakes down the edge only clears the reset bit, and then `cmd_ready` waits for
nothing. -/
theorem firstEdgeWithoutResetLeavesIt : Obligations.FirstEdgeWithoutResetLeavesIt := by
  intro s hprev hfree hrsps hdepth hm hrst
  obtain ⟨hready, hvalid⟩ := State.ports_of_prevRst (s := s.dropDrive) hprev
  have hedge : step s = .next (s.dropDrive.setPrevRst false) := by
    rw [step_eq, clockEdge_of_free (s := s.dropDrive) hm hrst hfree,
      State.acceptCommand_of_not _ _ (cmdTransfers_of_not_ready hready),
      State.takeResponse_of_not _ _ (rspTransfers_of_not_rspValid hvalid)]
  refine ⟨s.dropDrive.setPrevRst false, hedge, rfl, (State.cmdReady_iff _).2 ⟨rfl, hfree, ?_⟩⟩
  simpa [hrsps] using Nat.lt_of_succ_le hdepth

end Sys2Proof.Machine
end
